-- ==== Sys2Proof/Word.lean ====
section
/-!
DEFINITION. The word types of the block: one name per width the spec gives a value (00_scope.md section 6,
"Width of every value"). Every value is unsigned.
-/

namespace Sys2Proof

/-- One byte of a buffer or of a wire format. -/
abbrev Byte := BitVec 8

/-- Identifier, sequence, checksum, total length, `IN_LEN` (10_state.md R11, R12, R23, R25). -/
abbrev Word16 := BitVec 16

/-- `OUT_LEN` (10_state.md R24) and the address lines `req_addr` (20_memory.md R42). -/
abbrev Word17 := BitVec 17

/-- An IPv4 address (10_state.md R13, R14). -/
abbrev Word32 := BitVec 32

/-- A hardware address (10_state.md R15, R16) and the data lines of the request port (20_memory.md R42). -/
abbrev Word48 := BitVec 48

end Sys2Proof
end

