-- ==== Sys2Proof/Syntax.lean ====
section
/-!
DEFINITION. The command set: one constructor per row of spec/opcode_table.json (30_encoding.md R62). No command has
an operand field, an immediate or an addressing mode (30_encoding.md R60), so no constructor has an argument: every
command takes its operands from fixed registers and buffers.
-/

namespace Sys2Proof

/-- The seven commands, the block's instructions (30_encoding.md R62). -/
inductive Instr where
  /-- `SRST`, 0x00: soft reset of the registers (44_compose_and_system.md R153). -/
  | srst
  /-- `CSUM`, 0x01: Internet checksum of `IN[0..IN_LEN)` (40_checksum.md R88). -/
  | csum
  /-- `ICMP`, 0x02: ICMP echo-request message (41_icmp.md R105). -/
  | icmp
  /-- `IPV4`, 0x03: IPv4 packet (42_ipv4.md R124). -/
  | ipv4
  /-- `ETH`, 0x04: Ethernet frame (43_ethernet.md R139). -/
  | eth
  /-- `XFER`, 0x05: copy the result into the input (44_compose_and_system.md R152). -/
  | xfer
  /-- `PING`, 0x06: the complete frame in one command (44_compose_and_system.md R151). -/
  | ping
  deriving DecidableEq, Repr

end Sys2Proof
end

