-- ==== Sys2Proof/WellFormed.lean ====
section
/-!
DEFINITION. What makes a command byte one of the seven commands: two checks, one per field of the format of
30_encoding.md R60. A term of Instr has no operand that a check could refuse.
-/

namespace Sys2Proof

/-- Check 1: the field `ZERO`, bits 7:3, is 0 (30_encoding.md R60). -/
def CommandByte.zeroIsClear (c : Byte) : Bool := c.extractLsb' 3 5 == 0#5

/-- Check 2: the field `OP`, bits 2:0, is not the reserved operation 7 (30_encoding.md R62, R63). -/
def CommandByte.opIsAssigned (c : Byte) : Bool := c.extractLsb' 0 3 != 7#3

/-- A well-formed command byte passes both checks. -/
def CommandByte.wellFormed (c : Byte) : Bool := zeroIsClear c && opIsAssigned c

/-- Every term of Instr is well-formed: "No command has an operand field" (30_encoding.md R60). -/
def Instr.wellFormed (_ : Instr) : Bool := true

end Sys2Proof
end

