-- ==== Sys2Proof/Decode.lean ====
section
/-!
DEFINITION. Decoding a command byte, total and rejecting by name (30_encoding.md R60 to R63), and after it the encoder,
written from the byte column of the same table.
-/

namespace Sys2Proof

/-- Why a byte is no command (30_encoding.md R63). Both reasons raise the one error `IllegalCmd`. -/
inductive DecodeError where
  /-- `ZERO` ≠ 0: the bytes 0x08 to 0xFF. -/
  | zeroFieldSet
  /-- `OP` = 7: the byte 0x07. -/
  | opReserved
  deriving DecidableEq, Repr

/-- The field `ZERO`, bits 7:3 (30_encoding.md R60). -/
def zeroField (c : Byte) : BitVec 5 := c.extractLsb' 3 5

/-- The field `OP`, bits 2:0 (30_encoding.md R60). -/
def opField (c : Byte) : BitVec 3 := c.extractLsb' 0 3

/-- The operation a value of `OP` names (30_encoding.md R62), 7 being reserved (R63). -/
def decodeOp (op : BitVec 3) : Except DecodeError Instr :=
  match op with
  | 0#3 => .ok .srst
  | 1#3 => .ok .csum
  | 2#3 => .ok .icmp
  | 3#3 => .ok .ipv4
  | 4#3 => .ok .eth
  | 5#3 => .ok .xfer
  | 6#3 => .ok .ping
  | _ => .error .opReserved

/-- The command a byte names, all eight bits being matched (30_encoding.md R62, R63). -/
def decode (c : Byte) : Except DecodeError Instr :=
  if zeroField c = 0#5 then decodeOp (opField c) else .error .zeroFieldSet

/-- The command byte of a command (30_encoding.md R62, column `c`). -/
def encode : Instr → Byte
  | .srst => 0x00#8
  | .csum => 0x01#8
  | .icmp => 0x02#8
  | .ipv4 => 0x03#8
  | .eth => 0x04#8
  | .xfer => 0x05#8
  | .ping => 0x06#8

/-- The command byte held by a table word of nbits bits. A command is one byte (30_encoding.md R60), bit 0 its least
significant bit, as the table numbers it. -/
def tableByte (nbits w : Nat) : Byte := (BitVec.ofNat nbits w).setWidth 8

/-- What the decoder reads from a word of spec/opcode_table.json. -/
def decodeTableWord (nbits w : Nat) : Option Instr := (decode (tableByte nbits w)).toOption

end Sys2Proof
end

