-- ==== Sys2Proof/Config.lean ====
section
/-!
DEFINITION. What is fixed for the machine (buffer sizes) and what the spec leaves open: the free values, each an
opaque constant that no proof can evaluate. The constants of the wire formats stand with the framer that owns them
(00_scope.md R4), in Machine/Icmp.lean, Machine/Ipv4.lean and Machine/Ethernet.lean.
-/

namespace Sys2Proof.Config

/-- `IN_SIZE`: bytes in the `IN` buffer (10_state.md R27). -/
def inSize : Nat := 65536

/-- `OUT_SIZE`: bytes in the `OUT` buffer, 65535 + 14 (10_state.md R28). -/
def outSize : Nat := 65549

/-- FREE VALUE. What the n-th draw answers when the host reads an `IN` byte that nothing has written since reset:
"it just returns any value" (20_memory.md R46, 93_implementation_defined.md U2). Log entry 3. -/
opaque freeByte : Nat → Byte

/-- FREE VALUE. What the n-th draw answers when the host reads `OUT` at or beyond `OUT_LEN`: "the value returned is
unspecified" (20_memory.md R48, 93_implementation_defined.md U1). All 48 lines are free. Log entry 3. -/
opaque freeWord : Nat → Word48

/-- OPEN PARAMETER `T_CMD(op, IN_LEN)`: how many clock cycles a `CMD` write keeps `req_ready` low
(70_reset_and_hazards.md R211, 92_eei_decisions.md D25). "No rule reads it", and neither does the model, which has
no time. Log entry 9. -/
opaque tCmd : Byte → Word16 → Nat

end Sys2Proof.Config
end

