-- ==== Sys2Proof/Machine/State.lean ====
section
/-!
DEFINITION. The state of the block as plain data: registers, status, the two buffers (10_state.md), the request port's
inputs still to come and its last answer (20_memory.md R42), and the model's own counter of draws. Then what a step can
stop with, and the state after reset (10_state.md R35).
-/

namespace Sys2Proof.Machine

/-- A byte buffer: the bytes that hold a value, as (index, byte) pairs in rising order of index. An index that is not
listed holds no value: it is the partial map of 10_state.md R34, so "listed" is the mark "written since reset". -/
abbrev Memory := List Host.Cell

/-- The three fields of `STATUS` (10_state.md R21). The reserved bits 3:2 are not stored: they always read 0. -/
structure Status where
  /-- `DONE`, bit 0: the last command completed without error. -/
  done : Bool
  /-- `ERR`, bit 1: the last command ended with an error. -/
  err : Bool
  /-- `ERRCODE`, bits 7:4: the cause when `ERR` = 1, else 0. -/
  errcode : BitVec 4
  deriving DecidableEq, Repr

/-- The errors a command can raise (60_exceptions.md R170). -/
inductive CommandError where
  /-- Code 1: the command byte is none of 0x00 to 0x06. -/
  | illegalCmd
  /-- Code 2: the payload does not fit an IPv4 packet. -/
  | ipv4Len
  /-- Code 3: the result does not fit `IN_LEN`. -/
  | xferLen
  deriving DecidableEq, Repr

/-- The registers that have a number (10_state.md, the summary after R26). -/
inductive RegName where
  | cmd | status | inLen | outLen | csum | icmpId | icmpSeq | ipSrc | ipDst | ethDst | ethSrc
  deriving DecidableEq, Repr

/-- What the host presents on the request port: the `req_*` inputs other than `req_valid` (20_memory.md R42). -/
structure Request where
  /-- `req_write`: 1 = write, 0 = read. -/
  write : Bool
  /-- `req_space`: 0 = `REG`, 1 = `IN`, 2 = `OUT`, 3 = reserved. -/
  space : BitVec 2
  /-- `req_addr`: register number or byte index. -/
  addr : Word17
  /-- `req_wdata`: write data, right-aligned. -/
  wdata : Word48
  deriving DecidableEq, Repr

/-- The inputs of the request port at one modelled edge of `clk` (20_memory.md R42). With `rst` = 1 the core is reset
and the transaction, if one is presented, is abandoned (70_reset_and_hazards.md R202). With `rst` = 0 and `req_valid` = 1
this is the edge at which the presented transaction is accepted; edges that only wait are not modelled (log entry 9). -/
structure PortInput where
  rst : Bool
  reqValid : Bool
  req : Request
  deriving DecidableEq, Repr

/-- The outputs of the request port at the last modelled edge (20_memory.md R42). -/
inductive Response where
  /-- No transaction was accepted: reset, or nothing presented. `rsp_rdata` is not valid. -/
  | noTransaction
  /-- A write was accepted (`req_ready` = 1). It answers no data. -/
  | writeDone
  /-- A read was accepted (`req_ready` = 1) and answered these 48 bits on `rsp_rdata`. -/
  | readDone (rdata : Word48)
  deriving DecidableEq, Repr

/-- The state of the machine. INVENTORY.md lists each field with its rule and its value at reset. -/
structure State where
  /-- `ICMP_ID`, 0x5 (10_state.md R11). -/
  icmpId : Word16
  /-- `ICMP_SEQ`, 0x6 (10_state.md R12). -/
  icmpSeq : Word16
  /-- `IP_SRC`, 0x7 (10_state.md R13). -/
  ipSrc : Word32
  /-- `IP_DST`, 0x8 (10_state.md R14). -/
  ipDst : Word32
  /-- `ETH_DST`, 0x9 (10_state.md R15). -/
  ethDst : Word48
  /-- `ETH_SRC`, 0xA (10_state.md R16). -/
  ethSrc : Word48
  /-- `STATUS`, 0x1 (10_state.md R21). -/
  status : Status
  /-- `IN_LEN`, 0x2 (10_state.md R23). -/
  inLen : Word16
  /-- `OUT_LEN`, 0x3 (10_state.md R24). -/
  outLen : Word17
  /-- `CSUM`, 0x4 (10_state.md R25). -/
  csum : Word16
  /-- The `IN` buffer (10_state.md R27), listing the bytes written since reset (R34). -/
  inBuf : Memory
  /-- The `OUT` buffer (10_state.md R28), listing the bytes that hold a value (R29). -/
  outBuf : Memory
  /-- The port's outputs at the last modelled edge (20_memory.md R42). -/
  response : Response
  /-- What the host will drive on the port, the next edge first (20_memory.md R42, R50). The environment's, not a
  register: reset leaves it alone. Log entry 2. -/
  pending : List PortInput
  /-- The model's own: how many free values have been drawn. No register, and reset leaves it alone. Log entry 3. -/
  draws : Nat
  deriving DecidableEq, Repr

/-- Why the machine stops with a fault. -/
inductive Fault where
  /-- Raised by `CSUM`, `ICMP`, `IPV4`, `ETH` and `PING` when an input byte `IN[i]`, `i` < `IN_LEN`, has not been written
  since reset: "treats such a command as a fault: not as an error reported in `STATUS`, but as a run about which the spec
  says nothing" (10_state.md R34, 93_implementation_defined.md U2). SAFE: the model stops where a real block goes on. -/
  | unwrittenInput
  deriving DecidableEq, Repr

/-- Why the machine refuses an instruction. -/
inductive Refusal where
  /-- An instruction that has no meaning yet. No arm of exec raises it: all seven commands are modelled. SAFE. -/
  | notModelled (mnemonic : String)
  deriving DecidableEq, Repr

/-- The state right after reset (10_state.md R35): every register and flag 0, no buffer byte holding a value. Nothing is
presented on the port; the model's own counter starts at 0 (DESIGN CHOICE, log entry 3). -/
def State.reset : State where
  icmpId := 0x0000#16
  icmpSeq := 0x0000#16
  ipSrc := 0x00000000#32
  ipDst := 0x00000000#32
  ethDst := 0x000000000000#48
  ethSrc := 0x000000000000#48
  status := { done := false, err := false, errcode := 0#4 }
  inLen := 0#16
  outLen := 0#17
  csum := 0x0000#16
  inBuf := []
  outBuf := []
  response := .noTransaction
  pending := []
  draws := 0

end Sys2Proof.Machine
end

