-- ==== Sys2Proof/Machine/Flags.lean ====
section
/-!
DEFINITION. The flags: the fields of `STATUS`, the byte the host reads, the error codes, and what command start and
completion do to them (10_state.md R21, R22; 60_exceptions.md R170 to R172). Raising an error is in Machine/Ops.lean.
-/

namespace Sys2Proof.Machine

/-- Both flags and the code clear. -/
def clearStatus : Status := { done := false, err := false, errcode := 0#4 }

/-- The byte a read of `STATUS` returns: `ERRCODE` in 7:4, the reserved bits 3:2 zero, `ERR` in 1, `DONE` in 0
(10_state.md R21). -/
def statusByte (st : Status) : Byte :=
  st.errcode ++ 0#2 ++ BitVec.ofBool st.err ++ BitVec.ofBool st.done

/-- `code(E)` (60_exceptions.md R170). -/
def errorCode : CommandError → BitVec 4
  | .illegalCmd => 1#4
  | .ipv4Len => 2#4
  | .xferLen => 3#4

/-- Command start, before the command byte is decoded (60_exceptions.md R171). -/
def commandStart (s : State) : State := { s with status := clearStatus }

/-- `complete`: `STATUS.DONE <- 1`, `ERR` and `ERRCODE` being 0 since command start (60_exceptions.md R172). The three
fields are written out, so that a meaning says the whole of `STATUS` whatever state it is run from. -/
def complete (s : State) : State := { s with status := { done := true, err := false, errcode := 0#4 } }

end Sys2Proof.Machine
end

