-- ==== Sys2Proof/Machine/Ops.lean ====
section
/-!
DEFINITION. The named operations over the buffers and the registers that the commands share, and raising an error, the
block's one exception entry (60_exceptions.md R173). There is no return from an error (60_exceptions.md R176): the next
command's start clears it (R171).
-/

namespace Sys2Proof.Machine

/-- What an index that is not listed holds: no value (10_state.md R29, R34, R35). -/
def Memory.unlisted : Option Byte := none

/-- The canonical form: indices strictly rising, all inside a buffer of `size` bytes. An entry cannot equal what an
unlisted index holds, which is no value. -/
abbrev Memory.wf (size : Nat) (m : Memory) : Prop :=
  m.Pairwise (fun x y => x.1 < y.1) ∧ ∀ x ∈ m, x.1 < size

/-- The byte at an index, if it holds a value. -/
def Memory.read : Memory → Nat → Option Byte
  | [], _ => Memory.unlisted
  | (k, b) :: m, a => if k = a then some b else Memory.read m a

/-- The cells of `bytes` laid out from index `base` upward, byte 0 at the lowest index (00_scope.md section 6). -/
def Memory.cellsAt : Nat → List Byte → Memory
  | _, [] => []
  | base, b :: bs => (base, b) :: Memory.cellsAt (base + 1) bs

/-- The cells below an index. -/
def Memory.below (m : Memory) (k : Nat) : Memory := m.filter (fun c => decide (c.1 < k))

/-- The cells at or above an index. -/
def Memory.above (m : Memory) (k : Nat) : Memory := m.filter (fun c => decide (k ≤ c.1))

/-- Store `bytes` at `base`, `base + 1`, ...; every other index keeps what it held. -/
def Memory.store (m : Memory) (base : Nat) (bytes : List Byte) : Memory :=
  m.below base ++ (Memory.cellsAt base bytes ++ m.above (base + bytes.length))

/-- The `n` bytes from `base` upward, if all of them hold a value. -/
def Memory.readRange (m : Memory) : Nat → Nat → Option (List Byte)
  | _, 0 => some []
  | base, n + 1 =>
    match m.read base, Memory.readRange m (base + 1) n with
    | some b, some bs => some (b :: bs)
    | _, _ => none

/-- Copy the first `n` bytes of `src` over those of `dst`; at or above `n`, `dst` keeps what it held. -/
def Memory.copyFirst (src dst : Memory) (n : Nat) : Memory := src.below n ++ dst.above n

/-- `raise E`: the command ends with an error, failing closed (60_exceptions.md R173). -/
def raise (e : CommandError) (s : State) : State :=
  { s with status := { done := false, err := true, errcode := errorCode e }, outLen := 0#17 }

/-- Deliver a result: `OUT[i] <- bytes[i]` for every `i`, `OUT_LEN <- len(bytes)`, `complete`. `OUT` beyond the result
holds no value afterwards: "a command may have used that storage as scratch" (10_state.md R29). DEDUCED, log entry 4. -/
def deliver (bytes : List Byte) (s : State) : State :=
  complete { s with outBuf := Memory.cellsAt 0 bytes, outLen := BitVec.ofNat 17 bytes.length }

end Sys2Proof.Machine
end

