-- ==== Sys2Proof/Machine/Operands.lean ====
section
/-!
DEFINITION. The operand forms: big-endian byte sequences of register values (00_scope.md section 6, 20_memory.md R40,
R41), the input `IN[0..IN_LEN)` of a command (10_state.md R30, R34), and the register space as the host reads and writes
it (20_memory.md R43, R44).
-/

namespace Sys2Proof.Machine

/-- `be16(v)` = `[v[15:8], v[7:0]]`. -/
def be16 (v : Word16) : List Byte := [v.extractLsb' 8 8, v.extractLsb' 0 8]

/-- `be32(v)` = `[v[31:24], v[23:16], v[15:8], v[7:0]]`. -/
def be32 (v : Word32) : List Byte :=
  [v.extractLsb' 24 8, v.extractLsb' 16 8, v.extractLsb' 8 8, v.extractLsb' 0 8]

/-- `be48(v)` = `[v[47:40], v[39:32], v[31:24], v[23:16], v[15:8], v[7:0]]`. -/
def be48 (v : Word48) : List Byte :=
  [v.extractLsb' 40 8, v.extractLsb' 32 8, v.extractLsb' 24 8, v.extractLsb' 16 8, v.extractLsb' 8 8,
    v.extractLsb' 0 8]

/-- `word(hi, lo)` = `hi × 256 + lo`. -/
def word (hi lo : Byte) : Word16 := hi ++ lo

/-- The input of a command, `IN[0..IN_LEN)`, if every byte of it has been written since reset (10_state.md R34). -/
def inputBytes (s : State) : Option (List Byte) := s.inBuf.readRange 0 s.inLen.toNat

/-- Run the rest of a command on its input. A command whose input includes an unwritten byte "has no defined result":
the model faults (10_state.md R34, 93_implementation_defined.md U2). -/
def withInput (s : State) (k : List Byte → Host.Outcome State Fault Refusal) : Host.Outcome State Fault Refusal :=
  match inputBytes s with
  | some p => k p
  | none => .fault .unwrittenInput

/-- The register a register number names; none where the number is reserved (10_state.md R26). -/
def regOfNumber (n : Word17) : Option RegName :=
  match n.toNat with
  | 0x0 => some .cmd
  | 0x1 => some .status
  | 0x2 => some .inLen
  | 0x3 => some .outLen
  | 0x4 => some .csum
  | 0x5 => some .icmpId
  | 0x6 => some .icmpSeq
  | 0x7 => some .ipSrc
  | 0x8 => some .ipDst
  | 0x9 => some .ethDst
  | 0xA => some .ethSrc
  | _ => none

/-- The number of a register (10_state.md, the summary after R26). -/
def numberOfReg : RegName → Word17
  | .cmd => 0x0#17
  | .status => 0x1#17
  | .inLen => 0x2#17
  | .outLen => 0x3#17
  | .csum => 0x4#17
  | .icmpId => 0x5#17
  | .icmpSeq => 0x6#17
  | .ipSrc => 0x7#17
  | .ipDst => 0x8#17
  | .ethDst => 0x9#17
  | .ethSrc => 0xA#17

/-- `zext_48(REG[n])` for a register that has a number; `CMD` holds no state and reads 0 (20_memory.md R43,
10_state.md R20). -/
def readReg (r : RegName) (s : State) : Word48 :=
  match r with
  | .cmd => 0#48
  | .status => (statusByte s.status).setWidth 48
  | .inLen => s.inLen.setWidth 48
  | .outLen => s.outLen.setWidth 48
  | .csum => s.csum.setWidth 48
  | .icmpId => s.icmpId.setWidth 48
  | .icmpSeq => s.icmpSeq.setWidth 48
  | .ipSrc => s.ipSrc.setWidth 48
  | .ipDst => s.ipDst.setWidth 48
  | .ethDst => s.ethDst
  | .ethSrc => s.ethSrc

/-- `RegRead(n)`: a reserved number reads 0 (20_memory.md R43, 10_state.md R26). -/
def readRegNumber (n : Word17) (s : State) : Word48 :=
  match regOfNumber n with
  | some r => readReg r s
  | none => 0#48

/-- `REG[n] <- v[w−1:0]` for a host-writable register of width `w`; the write of a read-only register is ignored
(20_memory.md R44). `CMD` holds no state (10_state.md R20): the command its write runs is in Machine/Port.lean. -/
def writeReg (r : RegName) (v : Word48) (s : State) : State :=
  match r with
  | .cmd => s
  | .status => s
  | .inLen => { s with inLen := v.setWidth 16 }
  | .outLen => s
  | .csum => s
  | .icmpId => { s with icmpId := v.setWidth 16 }
  | .icmpSeq => { s with icmpSeq := v.setWidth 16 }
  | .ipSrc => { s with ipSrc := v.setWidth 32 }
  | .ipDst => { s with ipDst := v.setWidth 32 }
  | .ethDst => { s with ethDst := v }
  | .ethSrc => { s with ethSrc := v }

end Sys2Proof.Machine
end

