-- ==== Sys2Proof/Machine/Ethernet.lean ====
section
/-!
DEFINITION. The Ethernet header framer (43_ethernet.md R135 to R138) and the command `ETH` (R139). Its constant is wired
in and local to it (00_scope.md R4 and section 5).
-/

namespace Sys2Proof.Machine

/-- `ETH_TYPE`: 0x0800, the IPv4 ethertype. -/
def ethType : Word16 := 0x0800#16

/-- `eth_encode(dmac, smac, P)` (43_ethernet.md R135): destination, source, type, payload, and nothing else (R137). -/
def ethEncode (dmac smac : Word48) (p : List Byte) : List Byte :=
  be48 dmac ++ be48 smac ++ be16 ethType ++ p

/-- `ETH` (43_ethernet.md R139). -/
def execEth (s : State) : Host.Outcome State Fault Refusal :=
  withInput s fun p => .next (deliver (ethEncode s.ethDst s.ethSrc p) s)

end Sys2Proof.Machine
end

