-- ==== Sys2Proof/Machine/Checksum.lean ====
section
/-!
DEFINITION. The Internet checksum generator (40_checksum.md R80 to R85) and the command `CSUM` (R88). The deferred form
of R83 and the closed form of R84 stand beside it for the statements that compare them; no command calls those two.
-/

namespace Sys2Proof.Machine

/-- `pad(b)`: one zero byte appended to an odd-length sequence (40_checksum.md R81). -/
def pad (b : List Byte) : List Byte := if b.length % 2 = 0 then b else b ++ [0x00#8]

/-- The big-endian 16-bit words of an even-length sequence, word `k` = `word(p[2k], p[2k+1])` (40_checksum.md R80). -/
def wordsOf : List Byte → List Word16
  | hi :: lo :: rest => word hi lo :: wordsOf rest
  | [_] => []
  | [] => []

/-- `oc_add(a, w)`: one's-complement addition with end-around carry (40_checksum.md R82). -/
def ocAdd (a w : Word16) : Word16 :=
  if a.toNat + w.toNat > 0xFFFF then BitVec.ofNat 16 ((a.toNat + w.toNat - 0x10000) + 1)
  else BitVec.ofNat 16 (a.toNat + w.toNat)

/-- The accumulator after all words of `pad(b)`, from 0 (40_checksum.md R80). It is no architectural state
(10_state.md R33). -/
def ocSum (b : List Byte) : Word16 := (wordsOf (pad b)).foldl ocAdd 0x0000#16

/-- `csum16(b)` (40_checksum.md R80). -/
def csum16 (b : List Byte) : Word16 := ~~~(ocSum b)

/-- `csum_bytes(b)` = `be16(csum16(b))` (40_checksum.md R85). -/
def csumBytes (b : List Byte) : List Byte := be16 (csum16 b)

/-- `S`: the plain, unbounded sum of the words of `pad(b)` (40_checksum.md R83). -/
def plainSum (b : List Byte) : Nat := ((wordsOf (pad b)).map (fun w => w.toNat)).sum

/-- At most `fuel` fold steps `S <- S[15:0] + (S >> 16)`, taken while `S` > 0xFFFF (40_checksum.md R83). -/
def foldSteps : Nat → Nat → Nat
  | 0, s => s
  | fuel + 1, s => if s > 0xFFFF then foldSteps fuel (s % 0x10000 + s / 0x10000) else s

/-- `fold(S)` of the deferred form (40_checksum.md R83). A fold step lowers `S`, so `S` steps are enough. -/
def deferredFold (s : Nat) : Nat := foldSteps s s

/-- `acc_final` of the closed form (40_checksum.md R84). -/
def closedFold (s : Nat) : Nat := if s = 0 then 0 else (s - 1) % 65535 + 1

/-- `CSUM` (40_checksum.md R88): the number in the register `CSUM`, the two bytes in `OUT`. -/
def execCsum (s : State) : Host.Outcome State Fault Refusal :=
  withInput s fun p => .next (deliver (csumBytes p) { s with csum := csum16 p })

end Sys2Proof.Machine
end

