-- ==== Sys2Proof/Machine/Icmp.lean ====
section
/-!
DEFINITION. The ICMP echo-request framer (41_icmp.md R100, R101) and the command `ICMP` (R105). Its constants are wired
in and local to it (00_scope.md R4 and section 5).
-/

namespace Sys2Proof.Machine

/-- `ICMP_TYPE`: 8, echo request. -/
def icmpType : Byte := 0x08#8

/-- `ICMP_CODE`: 0. -/
def icmpCode : Byte := 0x00#8

/-- `M0`: the message with its checksum field, bytes 2 and 3, zeroed (41_icmp.md R100). -/
def icmpZeroed (id seq : Word16) (p : List Byte) : List Byte :=
  [icmpType, icmpCode, 0x00#8, 0x00#8] ++ be16 id ++ be16 seq ++ p

/-- `icmp_echo(id, seq, P)` (41_icmp.md R100): the checksum covers header and payload (R101). -/
def icmpEcho (id seq : Word16) (p : List Byte) : List Byte :=
  let m0 := icmpZeroed id seq p
  let c := csum16 m0
  (m0.set 2 (c.extractLsb' 8 8)).set 3 (c.extractLsb' 0 8)

/-- `ICMP` (41_icmp.md R105). -/
def execIcmp (s : State) : Host.Outcome State Fault Refusal :=
  withInput s fun p => .next (deliver (icmpEcho s.icmpId s.icmpSeq p) s)

end Sys2Proof.Machine
end

