-- ==== Sys2Proof/Machine/Ipv4.lean ====
section
/-!
DEFINITION. The IPv4 header framer with checksum insertion (42_ipv4.md R115 to R122) and the command `IPV4` (R124). Its
constants are wired in and local to it (00_scope.md R4 and section 5). The offsets of the fields between byte 4 and
byte 15 are the spec's from general knowledge (42_ipv4.md R116, 93_implementation_defined.md G1).
-/

namespace Sys2Proof.Machine

/-- `IP_VER_IHL`: 0x45. -/
def ipVerIhl : Byte := 0x45#8

/-- `IP_DSCP_ECN`: 0. -/
def ipDscpEcn : Byte := 0x00#8

/-- `IP_ID`: identification 0. -/
def ipId : Word16 := 0x0000#16

/-- `IP_FLAGS_FRAG`: flags and fragment offset 0. -/
def ipFlagsFrag : Word16 := 0x0000#16

/-- `IP_TTL`: 64. -/
def ipTtl : Byte := 0x40#8

/-- `IP_PROTO`: 1. -/
def ipProto : Byte := 0x01#8

/-- `IP_HDR_LEN`: 20 bytes. -/
def ipHdrLen : Nat := 20

/-- `IP_MAX_TOTAL`: 65535, the largest total length (42_ipv4.md R117). -/
def ipMaxTotal : Nat := 65535

/-- `H0`: the header for total length `tl` with its checksum field, bytes 10 and 11, zeroed (42_ipv4.md R115, R116). -/
def ipv4Zeroed (src dst : Word32) (tl : Word16) : List Byte :=
  [ipVerIhl, ipDscpEcn] ++ be16 tl ++ be16 ipId ++ be16 ipFlagsFrag ++ [ipTtl, ipProto] ++ [0x00#8, 0x00#8] ++
    be32 src ++ be32 dst

/-- `H`: the header with its checksum, taken over the 20 header bytes only, inserted (42_ipv4.md R115, R119). -/
def ipv4Header (src dst : Word32) (tl : Word16) : List Byte :=
  let h0 := ipv4Zeroed src dst tl
  let c := csum16 h0
  (h0.set 10 (c.extractLsb' 8 8)).set 11 (c.extractLsb' 0 8)

/-- `ipv4_encode(src, dst, P)` (42_ipv4.md R115). The total length is compared before it is narrowed (R117); an oversize
payload is rejected, never truncated or wrapped (R118, 90_conflicts.md C1). -/
def ipv4Encode (src dst : Word32) (p : List Byte) : Except CommandError (List Byte) :=
  if ipHdrLen + p.length > ipMaxTotal then .error .ipv4Len
  else .ok (ipv4Header src dst (BitVec.ofNat 16 (ipHdrLen + p.length)) ++ p)

/-- Deliver what an encoder that can reject gives: its bytes, or its error raised. -/
def deliverOrRaise (r : Except CommandError (List Byte)) (s : State) : State :=
  match r with
  | .ok bytes => deliver bytes s
  | .error e => raise e s

/-- `IPV4` (42_ipv4.md R124): the length test comes before any `IN` byte is read (60_exceptions.md R175). -/
def execIpv4 (s : State) : Host.Outcome State Fault Refusal :=
  if s.inLen.toNat + 20 > 65535 then .next (raise .ipv4Len s)
  else withInput s fun p => .next (deliverOrRaise (ipv4Encode s.ipSrc s.ipDst p) s)

end Sys2Proof.Machine
end

