-- ==== Sys2Proof/Machine/Compose.lean ====
section
/-!
DEFINITION. The composition of the three framers (44_compose_and_system.md R150), the two commands that carry it out,
`PING` (R151) and `XFER` (R152), and the system command `SRST` (R153).
-/

namespace Sys2Proof.Machine

/-- `ping_frame(dmac, smac, src, dst, id, seq, P)`: ICMP before IPv4 before Ethernet. The only error is the IPv4
framer's (44_compose_and_system.md R150). -/
def pingFrame (dmac smac : Word48) (src dst : Word32) (id seq : Word16) (p : List Byte) :
    Except CommandError (List Byte) :=
  match ipv4Encode src dst (icmpEcho id seq p) with
  | .ok k => .ok (ethEncode dmac smac k)
  | .error e => .error e

/-- `PING` (44_compose_and_system.md R151): the length test comes before any `IN` byte is read (60_exceptions.md R175). -/
def execPing (s : State) : Host.Outcome State Fault Refusal :=
  if s.inLen.toNat + 28 > 65535 then .next (raise .ipv4Len s)
  else withInput s fun p =>
    .next (deliverOrRaise (pingFrame s.ethDst s.ethSrc s.ipSrc s.ipDst s.icmpId s.icmpSeq p) s)

/-- `IN[i] <- OUT[i]` for `i` < `OUT_LEN`, marking each written, and `IN_LEN <- OUT_LEN`
(44_compose_and_system.md R152). -/
def copyResult (s : State) : State :=
  { s with inBuf := Memory.copyFirst s.outBuf s.inBuf s.outLen.toNat, inLen := s.outLen.setWidth 16 }

/-- `XFER` (44_compose_and_system.md R152). -/
def execXfer (s : State) : Host.Outcome State Fault Refusal :=
  if s.outLen.toNat > 65535 then .next (raise .xferLen s) else .next (complete (copyResult s))

/-- Every register at its reset value, both buffers as they are (44_compose_and_system.md R153). -/
def softReset (s : State) : State :=
  { s with
    inLen := 0#16, outLen := 0#17, csum := 0x0000#16
    icmpId := 0x0000#16, icmpSeq := 0x0000#16
    ipSrc := 0x00000000#32, ipDst := 0x00000000#32
    ethDst := 0x000000000000#48, ethSrc := 0x000000000000#48
    status := clearStatus }

/-- `SRST` (44_compose_and_system.md R153): neither `DONE` nor `ERR` is set afterwards. -/
def execSrst (s : State) : Host.Outcome State Fault Refusal := .next (softReset s)

end Sys2Proof.Machine
end

