-- ==== Sys2Proof/Machine/Dispatch.lean ====
section
/-! DEFINITION. One arm per command, in the order of 30_encoding.md R62: the direct call of its meaning. -/

namespace Sys2Proof.Machine

/-- The meaning of a decoded command, from the state that command start left (30_encoding.md R61). -/
def exec (i : Instr) (s : State) : Host.Outcome State Fault Refusal :=
  match i with
  | .srst => Sys2Proof.Machine.execSrst s
  | .csum => Sys2Proof.Machine.execCsum s
  | .icmp => Sys2Proof.Machine.execIcmp s
  | .ipv4 => Sys2Proof.Machine.execIpv4 s
  | .eth => Sys2Proof.Machine.execEth s
  | .xfer => Sys2Proof.Machine.execXfer s
  | .ping => Sys2Proof.Machine.execPing s

end Sys2Proof.Machine
end

