-- ==== Sys2Proof/Machine/Port.lean ====
section
/-!
DEFINITION. The request port: what one transaction does (20_memory.md R42 to R56), the write of `CMD` that runs a command
(30_encoding.md R61), and what one modelled edge of the clock does (70_reset_and_hazards.md R200, R202).
-/

namespace Sys2Proof.Machine

/-- A transaction as the port's fields give it (20_memory.md section 3). A read carries no data. -/
inductive Transaction where
  | regRead (n : Word17)
  | regWrite (n : Word17) (v : Word48)
  | inRead (i : Word17)
  | inWrite (i : Word17) (v : Word48)
  | outRead (i : Word17)
  | outWrite (i : Word17) (v : Word48)
  | reservedRead
  | reservedWrite
  deriving DecidableEq, Repr

/-- The transaction that the `req_*` inputs present (20_memory.md R42, R56). -/
def transactionOf (r : Request) : Transaction :=
  match r.space, r.write with
  | 0#2, false => .regRead r.addr
  | 0#2, true => .regWrite r.addr r.wdata
  | 1#2, false => .inRead r.addr
  | 1#2, true => .inWrite r.addr r.wdata
  | 2#2, false => .outRead r.addr
  | 2#2, true => .outWrite r.addr r.wdata
  | _, false => .reservedRead
  | _, true => .reservedWrite

/-- Run the command byte `c`: command start, decode, then the command's own rule (30_encoding.md R61; 60_exceptions.md
R174). A byte that is no command raises `IllegalCmd` (30_encoding.md R63). -/
def runCommand (c : Byte) (s : State) : Host.Outcome State Fault Refusal :=
  match decode c with
  | .ok i => exec i (commandStart s)
  | .error _ => .next (raise .illegalCmd (commandStart s))

/-- Drive read data on the port. -/
def answer (d : Word48) (s : State) : State := { s with response := .readDone d }

/-- Answer a read of an unwritten `IN` byte with a free byte, zero-extended (20_memory.md R46, R42). -/
def answerFreeByte (s : State) : State :=
  answer ((Config.freeByte s.draws).setWidth 48) { s with draws := s.draws + 1 }

/-- Answer a read of `OUT` at or beyond `OUT_LEN` with a free value (20_memory.md R48). -/
def answerFreeWord (s : State) : State :=
  answer (Config.freeWord s.draws) { s with draws := s.draws + 1 }

/-- `MemRead(IN, i, 1)` (20_memory.md R46). -/
def readIn (i : Word17) (s : State) : State :=
  if i.toNat ≤ 65535 then
    match s.inBuf.read i.toNat with
    | some b => answer (b.setWidth 48) s
    | none => answerFreeByte s
  else answer 0#48 s

/-- `MemWrite(IN, i, 1, v)`: an index above 65535 is ignored, it does not wrap (20_memory.md R45). -/
def writeIn (i : Word17) (v : Word48) (s : State) : State :=
  if i.toNat ≤ 65535 then { s with inBuf := s.inBuf.store i.toNat [v.setWidth 8] } else s

/-- `MemRead(OUT, i, 1)` (20_memory.md R48). Below `OUT_LEN` every byte holds a value (44_compose_and_system.md R152); a
state that no run reaches, in which one does not, is answered like an unspecified byte. -/
def readOut (i : Word17) (s : State) : State :=
  if i.toNat < s.outLen.toNat then
    match s.outBuf.read i.toNat with
    | some b => answer (b.setWidth 48) s
    | none => answerFreeWord s
  else answerFreeWord s

/-- `RegWrite(n, v)`: a write of `CMD` runs the command `v[7:0]`; a reserved number is ignored (20_memory.md R44). -/
def regWrite (n : Word17) (v : Word48) (s : State) : Host.Outcome State Fault Refusal :=
  match regOfNumber n with
  | some .cmd => runCommand (v.setWidth 8) s
  | some r => .next (writeReg r v s)
  | none => .next s

/-- One accepted transaction, atomically and to its end (20_memory.md R50). A write answers no data. -/
def transact (t : Transaction) (s : State) : Host.Outcome State Fault Refusal :=
  match t with
  | .regRead n => .next (answer (readRegNumber n s) s)
  | .regWrite n v => regWrite n v { s with response := .writeDone }
  | .inRead i => .next (readIn i s)
  | .inWrite i v => .next (writeIn i v { s with response := .writeDone })
  | .outRead i => .next (readOut i s)
  | .outWrite _ _ => .next { s with response := .writeDone }
  | .reservedRead => .next (answer 0#48 s)
  | .reservedWrite => .next { s with response := .writeDone }

/-- `rst` = 1: the reset state is taken (70_reset_and_hazards.md R200). What the host will drive next and the counter of
draws are not the core's: they stay. -/
def hardReset (s : State) : State := { State.reset with pending := s.pending, draws := s.draws }

/-- What one modelled edge does with the port's inputs: reset wins over a presented transaction, which is then not
accepted (70_reset_and_hazards.md R200, R202). -/
def portEdge (p : PortInput) (s : State) : Host.Outcome State Fault Refusal :=
  if p.rst then .next (hardReset s)
  else if p.reqValid then transact (transactionOf p.req) s
  else .next { s with response := .noTransaction }

/-- The next edge: the host's next inputs, or, with none to come, a core that waits (70_reset_and_hazards.md R200). -/
def nextEdge (s : State) : Host.Outcome State Fault Refusal :=
  match s.pending with
  | [] => .next { s with response := .noTransaction }
  | p :: rest => portEdge p { s with pending := rest }

/-- The inputs that present a transaction with `rst` = 0. -/
def presenting (r : Request) : PortInput := { rst := false, reqValid := true, req := r }

/-- The inputs of a reset edge. -/
def resetEdge : PortInput :=
  { rst := true, reqValid := false, req := { write := false, space := 0#2, addr := 0#17, wdata := 0#48 } }

/-- The transaction that writes the command byte `c` to `CMD` (30_encoding.md R61). -/
def commandWrite (c : Byte) : PortInput :=
  presenting { write := true, space := 0#2, addr := 0x0#17, wdata := c.setWidth 48 }

end Sys2Proof.Machine
end

