-- ==== Sys2Proof/Machine/Step.lean ====
section
/-!
DEFINITION. One step is one modelled edge of the request port: one transaction, a reset, or nothing presented
(20_memory.md R42: "one transaction is one step"). The core fetches no instructions (10_state.md R31): the next command
is the next `CMD` write the host presents.
-/

namespace Sys2Proof.Machine

/-- One step of the machine. -/
def step (s : State) : Host.Outcome State Fault Refusal := nextEdge s

/-- The state with the `CMD` write of a table word presented next. The word's bits are the low bits of `req_wdata`
(30_encoding.md R60). Log entry 2. -/
def State.withFetchWord (s : State) (nbits w : Nat) : State :=
  { s with pending := commandWrite (tableByte nbits w) :: s.pending }

end Sys2Proof.Machine
end

