-- ==== Sys2Proof/Machine/HostProgram.lean ====
section
/-!
DEFINITION. The notation for host programs (30_encoding.md R67, R68): each line is the tuple
`(req_write, req_space, req_addr, req_wdata)` of one transaction, each pseudo-operation a list of lines. The data lines
of a read are unused (R67, `—`); they are driven as 0.
-/

namespace Sys2Proof.Machine

/-- One line of a host program (30_encoding.md R67). -/
inductive HostLine where
  /-- `WR <reg>, <v>` -/
  | wr (r : RegName) (v : Word48)
  /-- `RD <reg>` -/
  | rd (r : RegName)
  /-- `WRIN <i>, <b>` -/
  | wrin (i : Word17) (b : Byte)
  /-- `RDIN <i>` -/
  | rdin (i : Word17)
  /-- `RDOUT <i>` -/
  | rdout (i : Word17)
  /-- `SRST`, `CSUM`, `ICMP`, `IPV4`, `ETH`, `XFER`, `PING` -/
  | command (i : Instr)
  deriving DecidableEq, Repr

/-- The tuple of a line (30_encoding.md R67). -/
def lineRequest : HostLine → Request
  | .wr r v => { write := true, space := 0#2, addr := numberOfReg r, wdata := v }
  | .rd r => { write := false, space := 0#2, addr := numberOfReg r, wdata := 0#48 }
  | .wrin i b => { write := true, space := 1#2, addr := i, wdata := b.setWidth 48 }
  | .rdin i => { write := false, space := 1#2, addr := i, wdata := 0#48 }
  | .rdout i => { write := false, space := 2#2, addr := i, wdata := 0#48 }
  | .command i => { write := true, space := 0#2, addr := 0x0#17, wdata := (encode i).setWidth 48 }

/-- A pseudo-operation (30_encoding.md R68). Addresses are given as the bytes of their written form, first byte first. -/
inductive PseudoOp where
  /-- `LOAD b0 b1 ... b(k−1)` -/
  | load (bytes : List Byte)
  /-- `DUMP k` -/
  | dump (k : Nat)
  /-- `SETIP <a.b.c.d>, <e.f.g.h>` -/
  | setIp (a b c d e f g h : Byte)
  /-- `SETMAC <dst>, <src>` -/
  | setMac (d0 d1 d2 d3 d4 d5 s0 s1 s2 s3 s4 s5 : Byte)
  /-- `SETECHO <id>, <seq>` -/
  | setEcho (id seq : Word16)
  deriving DecidableEq, Repr

/-- `WRIN base, b0`; `WRIN base+1, b1`; ... -/
def writeLines : Nat → List Byte → List HostLine
  | _, [] => []
  | base, b :: bs => .wrin (BitVec.ofNat 17 base) b :: writeLines (base + 1) bs

/-- `RDOUT base`; `RDOUT base+1`; ..., `k` lines. -/
def readLines : Nat → Nat → List HostLine
  | _, 0 => []
  | base, k + 1 => .rdout (BitVec.ofNat 17 base) :: readLines (base + 1) k

/-- The lines a pseudo-operation stands for (30_encoding.md R68). -/
def expand : PseudoOp → List HostLine
  | .load bytes => writeLines 0 bytes ++ [.wr .inLen (BitVec.ofNat 48 bytes.length)]
  | .dump k => readLines 0 k
  | .setIp a b c d e f g h =>
    [.wr .ipSrc ((a ++ b ++ c ++ d : Word32).setWidth 48), .wr .ipDst ((e ++ f ++ g ++ h : Word32).setWidth 48)]
  | .setMac d0 d1 d2 d3 d4 d5 s0 s1 s2 s3 s4 s5 =>
    [.wr .ethDst (d0 ++ d1 ++ d2 ++ d3 ++ d4 ++ d5), .wr .ethSrc (s0 ++ s1 ++ s2 ++ s3 ++ s4 ++ s5)]
  | .setEcho id seq => [.wr .icmpId (id.setWidth 48), .wr .icmpSeq (seq.setWidth 48)]

/-- The port inputs of a list of lines, in the order the host writes them. -/
def lineInputs (lines : List HostLine) : List PortInput := lines.map (fun l => presenting (lineRequest l))

end Sys2Proof.Machine
end

