-- ==== Sys2Proof/Safety.lean ====
section
/-!
DEFINITION. The vocabulary of the claims: the invariant of the machine, what it means for a byte sequence to be the input
or the result, what stays the same, and the port inputs a claim presents.
-/

namespace Sys2Proof.Machine

/-- The invariant every step keeps (10_state.md R21, R22, R24, R27, R28; 44_compose_and_system.md R152;
60_exceptions.md R170, R173). -/
structure StateInv (s : State) : Prop where
  /-- `IN` keeps its canonical form inside its 65536 bytes. -/
  inWf : s.inBuf.wf Config.inSize
  /-- `OUT` keeps its canonical form inside its 65549 bytes. -/
  outWf : s.outBuf.wf Config.outSize
  /-- "Values 0 to 65549 occur" (R24). -/
  outLenLe : s.outLen.toNat ≤ Config.outSize
  /-- "`OUT[0..OUT_LEN)` is written in full by the command that set `OUT_LEN`" (R152). -/
  outDefined : ∀ i, i < s.outLen.toNat → (s.outBuf.read i).isSome = true
  /-- `DONE` and `ERR` are never both 1 (R22). -/
  notBoth : ¬(s.status.done = true ∧ s.status.err = true)
  /-- `ERRCODE` is 0 when `ERR` = 0 (R21). -/
  noCode : s.status.err = false → s.status.errcode = 0#4
  /-- When `ERR` = 1, `ERRCODE` is one of the three codes (R170) and there is no output (R173). -/
  errCode : s.status.err = true → 1 ≤ s.status.errcode.toNat ∧ s.status.errcode.toNat ≤ 3 ∧ s.outLen = 0#17

/-- `p` is the input `IN[0..IN_LEN)`, every byte of it written since reset (10_state.md R23, R34). -/
def InputIs (s : State) (p : List Byte) : Prop :=
  p.length = s.inLen.toNat ∧ ∀ i, i < p.length → s.inBuf.read i = p[i]?

/-- `b` is the result `OUT[0..OUT_LEN)` (10_state.md R24, R29). -/
def ResultIs (s : State) (b : List Byte) : Prop :=
  s.outLen.toNat = b.length ∧ ∀ i, i < b.length → s.outBuf.read i = b[i]?

/-- Every byte of `IN[0..IN_LEN)` has been written since reset: what the host must do first (70_reset_and_hazards.md R203). -/
def InputWritten (s : State) : Prop := ∀ i, i < s.inLen.toNat → (s.inBuf.read i).isSome = true

/-- Whether a command, as the state stands, reads the `IN` bytes: the two that test a length read none when they raise
(60_exceptions.md R175). -/
def ReadsInput (i : Instr) (s : State) : Prop :=
  match i with
  | .srst => False
  | .csum => True
  | .icmp => True
  | .ipv4 => s.inLen.toNat ≤ 65515
  | .eth => True
  | .xfer => False
  | .ping => s.inLen.toNat ≤ 65507

/-- The six operand registers keep their values (10_state.md R10). -/
structure SameOperands (s t : State) : Prop where
  icmpId : t.icmpId = s.icmpId
  icmpSeq : t.icmpSeq = s.icmpSeq
  ipSrc : t.ipSrc = s.ipSrc
  ipDst : t.ipDst = s.ipDst
  ethDst : t.ethDst = s.ethDst
  ethSrc : t.ethSrc = s.ethSrc

/-- `IN_LEN` and every byte of the `IN` buffer keep what they held. -/
structure SameInput (s t : State) : Prop where
  inLen : t.inLen = s.inLen
  bytes : ∀ a, t.inBuf.read a = s.inBuf.read a

/-- `OUT_LEN` and every byte of the `OUT` buffer keep what they held. -/
structure SameOutput (s t : State) : Prop where
  outLen : t.outLen = s.outLen
  bytes : ∀ a, t.outBuf.read a = s.outBuf.read a

/-- The port's last answer, the host's inputs to come and the counter of draws keep their values. -/
structure SamePort (s t : State) : Prop where
  response : t.response = s.response
  pending : t.pending = s.pending
  draws : t.draws = s.draws

/-- `STATUS` after a command that completed: `DONE` alone (10_state.md R22, 60_exceptions.md R172). -/
def Completed (t : State) : Prop := t.status = { done := true, err := false, errcode := 0#4 }

/-- The state an error leaves: `STATUS` reports it, `OUT_LEN` is 0, "nothing else changes" (60_exceptions.md R173). -/
def failedWith (code : BitVec 4) (s : State) : State :=
  { s with status := { done := false, err := true, errcode := code }, outLen := 0#17 }

/-- A command that frames: it completes with the result `b` and leaves the operand registers, the input, `CSUM` and the
port alone (10_state.md R25, R30). -/
structure Framed (s t : State) (b : List Byte) : Prop where
  status : Completed t
  result : ResultIs t b
  operands : SameOperands s t
  input : SameInput s t
  csum : t.csum = s.csum
  port : SamePort s t

/-- The port inputs of `RegWrite(n, v)`. -/
def regWriteInput (n : Word17) (v : Word48) : PortInput :=
  presenting { write := true, space := 0#2, addr := n, wdata := v }

/-- The port inputs of `RegRead(n)`, the unused data lines at `w`. -/
def regReadInput (n : Word17) (w : Word48) : PortInput :=
  presenting { write := false, space := 0#2, addr := n, wdata := w }

/-- The port inputs of `MemWrite(IN, i, 1, v)`. -/
def inWriteInput (i : Word17) (v : Word48) : PortInput :=
  presenting { write := true, space := 1#2, addr := i, wdata := v }

/-- The port inputs of `MemRead(IN, i, 1)`. -/
def inReadInput (i : Word17) (w : Word48) : PortInput :=
  presenting { write := false, space := 1#2, addr := i, wdata := w }

/-- The port inputs of a write to the space `OUT`. -/
def outWriteInput (i : Word17) (v : Word48) : PortInput :=
  presenting { write := true, space := 2#2, addr := i, wdata := v }

/-- The port inputs of `MemRead(OUT, i, 1)`. -/
def outReadInput (i : Word17) (w : Word48) : PortInput :=
  presenting { write := false, space := 2#2, addr := i, wdata := w }

/-- The port inputs of an access to the reserved space 3. -/
def reservedInput (write : Bool) (i : Word17) (v : Word48) : PortInput :=
  presenting { write := write, space := 3#2, addr := i, wdata := v }

/-- Whether inputs present, with `rst` = 0, a write of register number `n`. -/
def PortInput.writesRegister (p : PortInput) (n : Word17) : Bool :=
  !p.rst && p.reqValid && p.req.write && p.req.space == 0#2 && p.req.addr == n

/-- Whether inputs present, with `rst` = 0, a write of `CMD`. -/
def PortInput.writesCmd (p : PortInput) : Bool := p.writesRegister 0x0#17

/-- Whether inputs present, with `rst` = 0, the write of `CMD` that issues the command `i`. -/
def PortInput.issues (p : PortInput) (i : Instr) : Bool := p.writesCmd && p.req.wdata.setWidth 8 == encode i

/-- The state after the host has presented `p` and then, for `rest`, everything else. -/
def State.facing (s : State) (p : PortInput) (rest : List PortInput) : State := { s with pending := p :: rest }

/-- The commands of a list, each issued by a write of its byte to `CMD`, in order. -/
def runCommands : List Instr → State → Host.Outcome State Fault Refusal
  | [], s => .next s
  | i :: is, s =>
    match runCommand (encode i) s with
    | .next t => runCommands is t
    | .fault f => .fault f
    | .refused r => .refused r

end Sys2Proof.Machine
end

