-- ==== Sys2Proof/Certificates/Slice0/Obligations.lean ====
section
/-!
DEFINITION. The statements for the provers, in the order of spec/: decoding and the step, reset, the request port, the
functions of the function layer, the commands one by one, the errors, and the rules about the whole machine.
-/

open Sys2Proof Sys2Proof.Machine

/-! ## Decoding and the step -/

/-- Each command is exactly one byte, written out from the column "bits 7..0" of 30_encoding.md R62. -/
def Obligations.CommandBytesDecode : Prop :=
  ∀ c : Byte,
    (decode c = .ok .srst ↔ c = 0b00000000#8) ∧ (decode c = .ok .csum ↔ c = 0b00000001#8) ∧
    (decode c = .ok .icmp ↔ c = 0b00000010#8) ∧ (decode c = .ok .ipv4 ↔ c = 0b00000011#8) ∧
    (decode c = .ok .eth ↔ c = 0b00000100#8) ∧ (decode c = .ok .xfer ↔ c = 0b00000101#8) ∧
    (decode c = .ok .ping ↔ c = 0b00000110#8)

/-- Decoding and encoding agree both ways, and a table word is read as its byte (30_encoding.md R60, R62). -/
def Obligations.DecodeAndEncodeAgree : Prop :=
  (∀ i : Instr, decode (encode i) = .ok i ∧ decodeTableWord 8 (encode i).toNat = some i) ∧
  (∀ (c : Byte) (i : Instr), decode c = .ok i → encode i = c ∧ CommandByte.wellFormed c = true)

/-- When the byte written to `CMD` decodes to a command, the step is that command's meaning, run after command start has
cleared `STATUS` and with the write taken off the host's inputs. Bits 47:8 of the data do not matter
(30_encoding.md R60, R61; 60_exceptions.md R171). -/
def Obligations.StepRunsDecodedCommand : Prop :=
  ∀ (s : State) (rest : List PortInput) (v : Word48) (i : Instr), decode (v.setWidth 8) = .ok i →
    step (s.facing (regWriteInput 0x0#17 v) rest) =
      exec i { s with
        pending := rest, response := .writeDone, status := { done := false, err := false, errcode := 0#4 } }

/-- R63: every byte other than 0x00 to 0x06 raises `IllegalCmd`, whatever the state, and nothing but `STATUS`, `OUT_LEN`
and the port changes; a write to a read-only or reserved register is no illegal encoding but is ignored. -/
def Obligations.IllegalCommandFailsClosed : Prop :=
  (∀ (s : State) (rest : List PortInput) (v : Word48), 0x07 ≤ (v.setWidth 8 : Byte).toNat →
    step (s.facing (regWriteInput 0x0#17 v) rest) =
      .next { s with
        pending := rest, response := .writeDone
        status := { done := false, err := true, errcode := 1#4 }, outLen := 0#17 }) ∧
  (∀ (s : State) (rest : List PortInput) (n : Word17) (v : Word48),
    n = 0x1#17 ∨ n = 0x3#17 ∨ n = 0x4#17 ∨ 0xB ≤ n.toNat →
    step (s.facing (regWriteInput n v) rest) = .next { s with pending := rest, response := .writeDone })

/-! ## Reset -/

/-- R35: the state after reset. No `IN` or `OUT` byte holds a value. `SRST` gives the same register values and leaves both
buffers as they were. -/
def Obligations.ResetStateIsAsTabled : Prop :=
  State.reset.status = { done := false, err := false, errcode := 0#4 } ∧
  State.reset.inLen = 0#16 ∧ State.reset.outLen = 0#17 ∧ State.reset.csum = 0#16 ∧
  State.reset.icmpId = 0#16 ∧ State.reset.icmpSeq = 0#16 ∧ State.reset.ipSrc = 0#32 ∧ State.reset.ipDst = 0#32 ∧
  State.reset.ethDst = 0#48 ∧ State.reset.ethSrc = 0#48 ∧
  (∀ a, State.reset.inBuf.read a = none) ∧ (∀ a, State.reset.outBuf.read a = none) ∧
  (∀ s : State, exec .srst s =
    .next { State.reset with
      inBuf := s.inBuf, outBuf := s.outBuf, response := s.response, pending := s.pending, draws := s.draws })

/-- R200, R202: an edge with `rst` = 1 takes the reset state from every state, whether or not a transaction is presented
with it, and accepts none; the abandoned transaction is not remembered. At an edge at which the host presents nothing,
and with nothing to come, the core waits: nothing of it changes. The clause that the host's further inputs and the
counter of draws stay is the model's own (log entries 2 and 3). -/
def Obligations.ResetEdgeTakesResetState : Prop :=
  (∀ (s : State) (rest : List PortInput) (p : PortInput), p.rst = true →
    step (s.facing p rest) = .next { State.reset with pending := rest, draws := s.draws }) ∧
  State.reset.response = .noTransaction ∧
  (∀ (s : State) (rest : List PortInput) (p : PortInput), p.rst = false → p.reqValid = false →
    step (s.facing p rest) = .next { s with pending := rest, response := .noTransaction }) ∧
  (∀ s : State, s.pending = [] → step s = .next { s with response := .noTransaction })

/-! ## The request port -/

/-- R43: a register read answers the register zero-extended to 48 bits, 0 for `CMD` and for a reserved number, and changes
nothing but the port. `STATUS` is laid out as 10_state.md R21 says. -/
def Obligations.RegisterReadAnswers : Prop :=
  ∀ (s : State) (rest : List PortInput) (n : Word17) (w : Word48), ∃ d : Word48,
    step (s.facing (regReadInput n w) rest) = .next { s with pending := rest, response := .readDone d } ∧
    (n = 0x0#17 → d.toNat = 0) ∧
    (n = 0x1#17 → d.toNat = s.status.errcode.toNat * 16 + s.status.err.toNat * 2 + s.status.done.toNat) ∧
    (n = 0x2#17 → d.toNat = s.inLen.toNat) ∧ (n = 0x3#17 → d.toNat = s.outLen.toNat) ∧
    (n = 0x4#17 → d.toNat = s.csum.toNat) ∧ (n = 0x5#17 → d.toNat = s.icmpId.toNat) ∧
    (n = 0x6#17 → d.toNat = s.icmpSeq.toNat) ∧ (n = 0x7#17 → d.toNat = s.ipSrc.toNat) ∧
    (n = 0x8#17 → d.toNat = s.ipDst.toNat) ∧ (n = 0x9#17 → d.toNat = s.ethDst.toNat) ∧
    (n = 0xA#17 → d.toNat = s.ethSrc.toNat) ∧ (0xB ≤ n.toNat → d.toNat = 0)

/-- R44: a register write sets a host-writable register to the low bits of the data, runs the command `v[7:0]` for
`CMD`, and is ignored for a read-only or reserved number. -/
def Obligations.RegisterWriteStoresLowBits : Prop :=
  ∀ (s : State) (rest : List PortInput) (v : Word48),
    (∃ x : Word16, x.toNat = v.toNat % 2 ^ 16 ∧
      step (s.facing (regWriteInput 0x2#17 v) rest) = .next { s with pending := rest, response := .writeDone, inLen := x } ∧
      step (s.facing (regWriteInput 0x5#17 v) rest) = .next { s with pending := rest, response := .writeDone, icmpId := x } ∧
      step (s.facing (regWriteInput 0x6#17 v) rest) =
        .next { s with pending := rest, response := .writeDone, icmpSeq := x }) ∧
    (∃ x : Word32, x.toNat = v.toNat % 2 ^ 32 ∧
      step (s.facing (regWriteInput 0x7#17 v) rest) = .next { s with pending := rest, response := .writeDone, ipSrc := x } ∧
      step (s.facing (regWriteInput 0x8#17 v) rest) =
        .next { s with pending := rest, response := .writeDone, ipDst := x }) ∧
    step (s.facing (regWriteInput 0x9#17 v) rest) = .next { s with pending := rest, response := .writeDone, ethDst := v } ∧
    step (s.facing (regWriteInput 0xA#17 v) rest) = .next { s with pending := rest, response := .writeDone, ethSrc := v } ∧
    (∃ c : Byte, c.toNat = v.toNat % 2 ^ 8 ∧
      step (s.facing (regWriteInput 0x0#17 v) rest) = runCommand c { s with pending := rest, response := .writeDone }) ∧
    (∀ n : Word17, n = 0x1#17 ∨ n = 0x3#17 ∨ n = 0x4#17 ∨ 0xB ≤ n.toNat →
      step (s.facing (regWriteInput n v) rest) = .next { s with pending := rest, response := .writeDone })

/-- R45: a write to `IN` sets one byte, which is then marked written, and changes no other byte and no register; an index
above 65535 is ignored and does not wrap. -/
def Obligations.InputByteWriteSetsOneByte : Prop :=
  ∀ (s : State) (rest : List PortInput) (i : Word17) (v : Word48),
    (i.toNat ≤ 65535 → ∃ m : Memory, ∃ b : Byte,
      step (s.facing (inWriteInput i v) rest) = .next { s with pending := rest, response := .writeDone, inBuf := m } ∧
      b.toNat = v.toNat % 2 ^ 8 ∧ m.read i.toNat = some b ∧ ∀ a, a ≠ i.toNat → m.read a = s.inBuf.read a) ∧
    (65535 < i.toNat →
      step (s.facing (inWriteInput i v) rest) = .next { s with pending := rest, response := .writeDone })

/-- R46: a read of `IN` answers the byte zero-extended; for a byte never written since reset it answers some value and
does not stop; above 65535 it answers 0. No state changes (`draws` is the model's own counter, log entry 3). -/
def Obligations.InputByteReadAnswers : Prop :=
  ∀ (s : State) (rest : List PortInput) (i : Word17) (w : Word48),
    (∀ b : Byte, i.toNat ≤ 65535 → s.inBuf.read i.toNat = some b → ∃ d : Word48, d.toNat = b.toNat ∧
      step (s.facing (inReadInput i w) rest) = .next { s with pending := rest, response := .readDone d }) ∧
    (i.toNat ≤ 65535 → s.inBuf.read i.toNat = none → ∃ (d : Word48) (k : Nat),
      step (s.facing (inReadInput i w) rest) = .next { s with pending := rest, response := .readDone d, draws := k }) ∧
    (65535 < i.toNat →
      step (s.facing (inReadInput i w) rest) = .next { s with pending := rest, response := .readDone 0#48 })

/-- R47, R48: a write to `OUT` is ignored; a read below `OUT_LEN` answers the result byte zero-extended; at or beyond
`OUT_LEN`, whatever the index, it answers some value and does not stop. No state changes (`draws` is the model's own
counter, log entry 3). -/
def Obligations.OutputIsReadOnly : Prop :=
  ∀ (s : State) (rest : List PortInput) (i : Word17) (w : Word48),
    step (s.facing (outWriteInput i w) rest) = .next { s with pending := rest, response := .writeDone } ∧
    (∀ b : Byte, i.toNat < s.outLen.toNat → s.outBuf.read i.toNat = some b → ∃ d : Word48, d.toNat = b.toNat ∧
      step (s.facing (outReadInput i w) rest) = .next { s with pending := rest, response := .readDone d }) ∧
    (s.outLen.toNat ≤ i.toNat → ∃ (d : Word48) (k : Nat),
      step (s.facing (outReadInput i w) rest) = .next { s with pending := rest, response := .readDone d, draws := k })

/-- R56: the reserved space reads 0 and ignores writes. -/
def Obligations.ReservedSpaceDoesNothing : Prop :=
  ∀ (s : State) (rest : List PortInput) (i : Word17) (v : Word48),
    step (s.facing (reservedInput false i v) rest) = .next { s with pending := rest, response := .readDone 0#48 } ∧
    step (s.facing (reservedInput true i v) rest) = .next { s with pending := rest, response := .writeDone }

/-- 20_memory.md R51: a read returns the most recent write. Two steps: an `IN` byte and the widest operand register,
written and read back. -/
def Obligations.ReadReturnsLastWrite : Prop :=
  ∀ (s : State) (rest : List PortInput) (i : Word17) (v w : Word48),
    (i.toNat ≤ 65535 → ∃ (t : State) (d : Word48), d.toNat = v.toNat % 2 ^ 8 ∧
      Sys2Proof.core.run 2 { s with pending := inWriteInput i v :: inReadInput i w :: rest } = .next t ∧
      t.response = .readDone d ∧ t.pending = rest) ∧
    (∃ t : State,
      Sys2Proof.core.run 2 { s with pending := regWriteInput 0x9#17 v :: regReadInput 0x9#17 w :: rest } = .next t ∧
      t.response = .readDone v ∧ t.pending = rest)

/-- 30_encoding.md R67, R68: `LOAD` of up to 65535 bytes runs to its end, makes those bytes the input of the next command,
and leaves every other byte of `IN`, the operand registers and the output alone. -/
def Obligations.LoadMakesTheInput : Prop :=
  ∀ (s : State) (rest : List PortInput) (p : List Byte), p.length ≤ 65535 → ∃ t : State,
    Sys2Proof.core.run (p.length + 1) { s with pending := lineInputs (expand (.load p)) ++ rest } = .next t ∧
    t.pending = rest ∧ InputIs t p ∧ (∀ a, p.length ≤ a → t.inBuf.read a = s.inBuf.read a) ∧
    SameOperands s t ∧ SameOutput s t ∧ t.csum = s.csum ∧ t.status = s.status

/-- 30_encoding.md R68: what `SETIP`, `SETMAC` and `SETECHO` leave in the registers. -/
def Obligations.AddressPseudoOpsSetRegisters : Prop :=
  (∀ (s : State) (rest : List PortInput) (a b c d e f g h : Byte), ∃ t : State,
    Sys2Proof.core.run 2 { s with pending := lineInputs (expand (.setIp a b c d e f g h)) ++ rest } = .next t ∧
    t = { s with pending := rest, response := .writeDone, ipSrc := t.ipSrc, ipDst := t.ipDst } ∧
    t.ipSrc.toNat = a.toNat * 2 ^ 24 + b.toNat * 2 ^ 16 + c.toNat * 2 ^ 8 + d.toNat ∧
    t.ipDst.toNat = e.toNat * 2 ^ 24 + f.toNat * 2 ^ 16 + g.toNat * 2 ^ 8 + h.toNat) ∧
  (∀ (s : State) (rest : List PortInput) (d0 d1 d2 d3 d4 d5 s0 s1 s2 s3 s4 s5 : Byte), ∃ t : State,
    Sys2Proof.core.run 2 { s with
      pending := lineInputs (expand (.setMac d0 d1 d2 d3 d4 d5 s0 s1 s2 s3 s4 s5)) ++ rest } = .next t ∧
    t = { s with pending := rest, response := .writeDone, ethDst := t.ethDst, ethSrc := t.ethSrc } ∧
    be48 t.ethDst = [d0, d1, d2, d3, d4, d5] ∧ be48 t.ethSrc = [s0, s1, s2, s3, s4, s5]) ∧
  (∀ (s : State) (rest : List PortInput) (id seq : Word16),
    Sys2Proof.core.run 2 { s with pending := lineInputs (expand (.setEcho id seq)) ++ rest } =
      .next { s with pending := rest, response := .writeDone, icmpId := id, icmpSeq := seq })

/-! ## The function layer -/

/-- R41: a register is emitted most significant byte first, and the array a host holds, written as the number the rule
gives, is emitted verbatim. -/
def Obligations.RegistersAreBigEndian : Prop :=
  (∀ a0 a1 : Byte, be16 (BitVec.ofNat 16 (a0.toNat * 256 + a1.toNat)) = [a0, a1]) ∧
  (∀ a0 a1 a2 a3 : Byte,
    be32 (BitVec.ofNat 32 (a0.toNat * 256 ^ 3 + a1.toNat * 256 ^ 2 + a2.toNat * 256 + a3.toNat)) = [a0, a1, a2, a3]) ∧
  (∀ a0 a1 a2 a3 a4 a5 : Byte,
    be48 (BitVec.ofNat 48 (a0.toNat * 256 ^ 5 + a1.toNat * 256 ^ 4 + a2.toNat * 256 ^ 3 + a3.toNat * 256 ^ 2 +
      a4.toNat * 256 + a5.toNat)) = [a0, a1, a2, a3, a4, a5])

/-- R80, R81: an odd-length input has the checksum of itself with one zero byte appended, two more bytes at an even index
add one big-endian word with end-around carry, and the result is the complement of the accumulator. -/
def Obligations.ChecksumSumsBigEndianWords : Prop :=
  (∀ b : List Byte, b.length % 2 = 1 → csum16 b = csum16 (b ++ [0x00#8])) ∧
  (∀ (b : List Byte) (hi lo : Byte), b.length % 2 = 0 → ∀ a : Nat, a = 0xFFFF - (csum16 b).toNat →
    (csum16 (b ++ [hi, lo])).toNat =
      0xFFFF - (if a + (hi.toNat * 256 + lo.toNat) > 0xFFFF then a + (hi.toNat * 256 + lo.toNat) - 0x10000 + 1
        else a + (hi.toNat * 256 + lo.toNat))) ∧
  (csum16 []).toNat = 0xFFFF

/-- R83: folding the carries at every word and folding a plain sum at the end give the same accumulator; the result does
not depend on the order of the words; more than one fold step can be needed. The spec marks R83 as its own inference
("[derived: from rule R80 and rule R82]"). -/
def Obligations.DeferredFoldingAgrees : Prop :=
  (∀ b : List Byte, (ocSum b).toNat = deferredFold (plainSum b)) ∧
  (∀ (ws ws' : List Word16), ws.Perm ws' → ws.foldl ocAdd 0#16 = ws'.foldl ocAdd 0#16) ∧
  (0x1FFFF % 0x10000 + 0x1FFFF / 0x10000 = 0x10000 ∧ deferredFold 0x1FFFF = 0x0001)

/-- R84: the closed form and its consequences, which the spec marks as its own inference ("[derived: from rule R80, rule
R82 and rule R83]"). -/
def Obligations.ChecksumClosedForm : Prop :=
  ∀ b : List Byte,
    (csum16 b).toNat = 0xFFFF - (if plainSum b = 0 then 0 else (plainSum b - 1) % 65535 + 1) ∧
    (csum16 b = 0xFFFF#16 ↔ ∀ x ∈ b, x = 0x00#8) ∧
    (csum16 b = 0x0000#16 ↔ 0 < plainSum b ∧ plainSum b % 65535 = 0)

/-- R86: a sequence whose two-byte field at an even index holds the checksum of the sequence with that field zeroed has
the checksum 0x0000. The spec states it as the source's test property and marks its extent as its own inference
("[derived: from rule R84]"). -/
def Obligations.ChecksumSelfVerifies : Prop :=
  ∀ (h : List Byte) (j : Nat), j % 2 = 0 → j + 1 < h.length →
    [h[j]?, h[j + 1]?] = (csumBytes ((h.set j 0x00#8).set (j + 1) 0x00#8)).map some →
    csum16 h = 0x0000#16

/-- R100: the byte layout of the ICMP echo-request message, its checksum taken over the whole message with bytes 2 and 3
zeroed (R101), and its length (R102). -/
def Obligations.IcmpMessageLayout : Prop :=
  ∀ (id seq : Word16) (p : List Byte), ∃ c : Word16,
    c = csum16 ([0x08#8, 0x00#8, 0x00#8, 0x00#8] ++ be16 id ++ be16 seq ++ p) ∧
    (icmpEcho id seq p).length = 8 + p.length ∧
    (icmpEcho id seq p)[0]? = some 0x08#8 ∧ (icmpEcho id seq p)[1]? = some 0x00#8 ∧
    (icmpEcho id seq p)[2]? = some (c.extractLsb' 8 8) ∧ (icmpEcho id seq p)[3]? = some (c.extractLsb' 0 8) ∧
    (icmpEcho id seq p)[4]? = some (id.extractLsb' 8 8) ∧ (icmpEcho id seq p)[5]? = some (id.extractLsb' 0 8) ∧
    (icmpEcho id seq p)[6]? = some (seq.extractLsb' 8 8) ∧ (icmpEcho id seq p)[7]? = some (seq.extractLsb' 0 8) ∧
    (∀ i, i < p.length → (icmpEcho id seq p)[8 + i]? = p[i]?)

/-- R104: no pad byte in the output; the message verifies; 0x0000 and 0xFFFF in the identifier, the sequence or a payload
word give the same checksum; the checksum can be 0x0000 and is never 0xFFFF. The spec marks R104 as its own inference
("[derived: from rule R100, rule R101 and ..."). -/
def Obligations.IcmpChecksumProperties : Prop :=
  (∀ (id seq : Word16) (p : List Byte),
    (icmpEcho id seq p).length = 8 + p.length ∧ csum16 (icmpEcho id seq p) = 0x0000#16 ∧
    ((icmpEcho 0x0000#16 seq p).drop 2).take 2 = ((icmpEcho 0xFFFF#16 seq p).drop 2).take 2 ∧
    ((icmpEcho id 0x0000#16 p).drop 2).take 2 = ((icmpEcho id 0xFFFF#16 p).drop 2).take 2 ∧
    ((icmpEcho id seq p).drop 2).take 2 ≠ [0xFF#8, 0xFF#8]) ∧
  (∀ (id seq : Word16) (before after : List Byte), before.length % 2 = 0 →
    ((icmpEcho id seq (before ++ [0x00#8, 0x00#8] ++ after)).drop 2).take 2 =
      ((icmpEcho id seq (before ++ [0xFF#8, 0xFF#8] ++ after)).drop 2).take 2) ∧
  icmpEcho 0xF7FF#16 0x0000#16 [] = [0x08#8, 0x00#8, 0x00#8, 0x00#8, 0xF7#8, 0xFF#8, 0x00#8, 0x00#8]

/-- R116: the layout of the IPv4 header around a payload that fits, with the total length of R117, the checksum of R119
over the header alone, the addresses of R120 and the payload of R121. The offsets of the fields at bytes 4 to 15 are
general knowledge by the spec's own mark (log entry 8). -/
def Obligations.Ipv4PacketLayout : Prop :=
  ∀ (src dst : Word32) (p : List Byte), p.length ≤ 65515 → ∃ (k : List Byte) (tl c : Word16),
    ipv4Encode src dst p = .ok k ∧ k.length = 20 + p.length ∧ tl.toNat = 20 + p.length ∧
    c = csum16 ([0x45#8, 0x00#8] ++ be16 tl ++ [0x00#8, 0x00#8, 0x00#8, 0x00#8, 0x40#8, 0x01#8, 0x00#8, 0x00#8] ++
      be32 src ++ be32 dst) ∧
    k[0]? = some 0x45#8 ∧ k[1]? = some 0x00#8 ∧
    k[2]? = some (tl.extractLsb' 8 8) ∧ k[3]? = some (tl.extractLsb' 0 8) ∧
    k[4]? = some 0x00#8 ∧ k[5]? = some 0x00#8 ∧ k[6]? = some 0x00#8 ∧ k[7]? = some 0x00#8 ∧
    k[8]? = some 0x40#8 ∧ k[9]? = some 0x01#8 ∧
    k[10]? = some (c.extractLsb' 8 8) ∧ k[11]? = some (c.extractLsb' 0 8) ∧
    (k.drop 12).take 4 = be32 src ∧ (k.drop 16).take 4 = be32 dst ∧ k.drop 20 = p

/-- R118: a payload above 65515 bytes gives no output but the error; one of 65515 or less is accepted. -/
def Obligations.OversizePayloadIsRejected : Prop :=
  (∀ (src dst : Word32) (p : List Byte), 65516 ≤ p.length → ipv4Encode src dst p = .error .ipv4Len) ∧
  (∀ (src dst : Word32) (p : List Byte), p.length ≤ 65515 → ∃ k, ipv4Encode src dst p = .ok k) ∧
  (∀ s : State, 65516 ≤ s.inLen.toNat → exec .ipv4 s = .next (failedWith 2#4 s))

/-- R123: the header verifies; its checksum is never 0xFFFF and can be 0x0000; it is the complement of the folded sum of
the constant words 0x8501, the total length and the address halves; all-zero and all-one addresses give the same
checksum, 0x7AEA for an empty payload. The spec marks R123 as its own inference ("[derived: from rule R115, rule R119
and ..."), and the offsets rest on log entry 8. -/
def Obligations.Ipv4HeaderProperties : Prop :=
  (∀ (src dst : Word32) (p k : List Byte), ipv4Encode src dst p = .ok k →
    csum16 (k.take 20) = 0x0000#16 ∧ (k.drop 10).take 2 ≠ [0xFF#8, 0xFF#8] ∧
    (k.drop 10).take 2 = be16 (BitVec.ofNat 16 (0xFFFF -
      deferredFold (0x8501 + (20 + p.length) + src.toNat / 65536 + src.toNat % 65536 + dst.toNat / 65536 +
        dst.toNat % 65536)))) ∧
  (∃ (src dst : Word32) (k : List Byte), ipv4Encode src dst [] = .ok k ∧ (k.drop 10).take 2 = [0x00#8, 0x00#8]) ∧
  (∀ p k k' : List Byte, ipv4Encode 0x00000000#32 0x00000000#32 p = .ok k →
    ipv4Encode 0xFFFFFFFF#32 0xFFFFFFFF#32 p = .ok k' →
    (k.drop 10).take 2 = (k'.drop 10).take 2 ∧ (p = [] → (k.drop 10).take 2 = [0x7A#8, 0xEA#8]))

/-- R135: the Ethernet frame is destination, source, type 0x0800 and payload, in this order, and nothing else. -/
def Obligations.EthernetFrameLayout : Prop :=
  ∀ (dmac smac : Word48) (p : List Byte),
    (ethEncode dmac smac p).length = 14 + p.length ∧
    (ethEncode dmac smac p)[0]? = some (dmac.extractLsb' 40 8) ∧
    (ethEncode dmac smac p)[1]? = some (dmac.extractLsb' 32 8) ∧
    (ethEncode dmac smac p)[2]? = some (dmac.extractLsb' 24 8) ∧
    (ethEncode dmac smac p)[3]? = some (dmac.extractLsb' 16 8) ∧
    (ethEncode dmac smac p)[4]? = some (dmac.extractLsb' 8 8) ∧
    (ethEncode dmac smac p)[5]? = some (dmac.extractLsb' 0 8) ∧
    (ethEncode dmac smac p)[6]? = some (smac.extractLsb' 40 8) ∧
    (ethEncode dmac smac p)[7]? = some (smac.extractLsb' 32 8) ∧
    (ethEncode dmac smac p)[8]? = some (smac.extractLsb' 24 8) ∧
    (ethEncode dmac smac p)[9]? = some (smac.extractLsb' 16 8) ∧
    (ethEncode dmac smac p)[10]? = some (smac.extractLsb' 8 8) ∧
    (ethEncode dmac smac p)[11]? = some (smac.extractLsb' 0 8) ∧
    (ethEncode dmac smac p)[12]? = some 0x08#8 ∧ (ethEncode dmac smac p)[13]? = some 0x00#8 ∧
    (∀ i, i < p.length → (ethEncode dmac smac p)[14 + i]? = p[i]?)

/-- R150: the composed frame is the Ethernet header, the IPv4 header with total length 28 + len(P) and the ICMP message,
each checksum covering its own layer; the only error is the IPv4 framer's, for a payload above 65507 bytes. -/
def Obligations.PingFrameLayout : Prop :=
  ∀ (dmac smac : Word48) (src dst : Word32) (id seq : Word16) (p : List Byte),
    (p.length ≤ 65507 → ∃ (f : List Byte) (tl : Word16), pingFrame dmac smac src dst id seq p = .ok f ∧
      f.length = 42 + p.length ∧
      f.take 14 = be48 dmac ++ be48 smac ++ [0x08#8, 0x00#8] ∧
      tl.toNat = 28 + p.length ∧ (f.drop 14).take 20 = ipv4Header src dst tl ∧
      f.drop 34 = icmpEcho id seq p ∧ f.drop 42 = p) ∧
    (65507 < p.length → pingFrame dmac smac src dst id seq p = .error .ipv4Len)

/-! ## The commands -/

/-- R88: `CSUM` completes for every input that has been written, of every length 0 to 65535: the number in `CSUM`, the two
bytes in `OUT`, `OUT_LEN` = 2; the input, the operand registers and the port are unchanged. -/
def Obligations.CsumCommandCompletes : Prop :=
  ∀ (s : State) (p : List Byte), InputIs s p → ∃ t : State, exec .csum s = .next t ∧
    t.csum = csum16 p ∧ t.outLen = 2#17 ∧
    t.outBuf.read 0 = some ((csum16 p).extractLsb' 8 8) ∧ t.outBuf.read 1 = some ((csum16 p).extractLsb' 0 8) ∧
    Completed t ∧ SameOperands s t ∧ SameInput s t ∧ SamePort s t

/-- R105: `ICMP` completes for every input that has been written, of every length 0 to 65535, with the message of R100
around it; nothing else changes. -/
def Obligations.IcmpCommandCompletes : Prop :=
  ∀ (s : State) (p : List Byte), InputIs s p → ∃ t : State, exec .icmp s = .next t ∧
    Framed s t (icmpEcho s.icmpId s.icmpSeq p) ∧ t.outLen.toNat = 8 + s.inLen.toNat

/-- R124: `IPV4` completes for every input of at most 65515 bytes that has been written, with the packet of R115 around
it; above, it raises `Ipv4Len` whether or not any byte has been written; nothing else changes. -/
def Obligations.Ipv4CommandCompletesOrRaises : Prop :=
  (∀ (s : State) (p : List Byte), InputIs s p → s.inLen.toNat ≤ 65515 → ∃ (t : State) (k : List Byte),
    exec .ipv4 s = .next t ∧ ipv4Encode s.ipSrc s.ipDst p = .ok k ∧ Framed s t k ∧
    t.outLen.toNat = 20 + s.inLen.toNat) ∧
  (∀ s : State, 65516 ≤ s.inLen.toNat → exec .ipv4 s = .next (failedWith 2#4 s))

/-- R139: `ETH` completes for every input that has been written, of every length 0 to 65535, with the frame of R135 around
it; nothing else changes. -/
def Obligations.EthCommandCompletes : Prop :=
  ∀ (s : State) (p : List Byte), InputIs s p → ∃ t : State, exec .eth s = .next t ∧
    Framed s t (ethEncode s.ethDst s.ethSrc p) ∧ t.outLen.toNat = 14 + s.inLen.toNat

/-- R151: `PING` completes for every input of at most 65507 bytes that has been written, with the frame of R150 around it;
above, it raises `Ipv4Len` whether or not any byte has been written; nothing else changes. -/
def Obligations.PingCommandCompletesOrRaises : Prop :=
  (∀ (s : State) (p : List Byte), InputIs s p → s.inLen.toNat ≤ 65507 → ∃ (t : State) (f : List Byte),
    exec .ping s = .next t ∧ pingFrame s.ethDst s.ethSrc s.ipSrc s.ipDst s.icmpId s.icmpSeq p = .ok f ∧
    Framed s t f ∧ t.outLen.toNat = 42 + s.inLen.toNat) ∧
  (∀ s : State, 65508 ≤ s.inLen.toNat → exec .ping s = .next (failedWith 2#4 s))

/-- R152: `XFER` copies the result into the input and sets `IN_LEN`; `OUT`, `OUT_LEN`, `CSUM`, the operand registers and
the `IN` bytes beyond the copy are unchanged; the bytes copied are marked written where the result is defined, as it is
in every state that keeps the invariant; `XFER` twice in a row is `XFER` once. A result longer than 65535 bytes raises
`XferLen`. -/
def Obligations.XferCommandCopiesOrRaises : Prop :=
  (∀ s : State, s.outLen.toNat ≤ 65535 → ∃ t : State, exec .xfer s = .next t ∧
    t.inLen.toNat = s.outLen.toNat ∧
    (∀ i, i < s.outLen.toNat → t.inBuf.read i = s.outBuf.read i) ∧
    (∀ i, s.outLen.toNat ≤ i → t.inBuf.read i = s.inBuf.read i) ∧
    (StateInv s → InputWritten t) ∧ exec .xfer t = .next t ∧
    Completed t ∧ SameOperands s t ∧ SameOutput s t ∧ t.csum = s.csum ∧ SamePort s t) ∧
  (∀ s : State, 65536 ≤ s.outLen.toNat → exec .xfer s = .next (failedWith 3#4 s))

/-- R153: `SRST` completes from every state: every register 0, neither flag set, both buffers as they were; right after
reset it changes nothing. -/
def Obligations.SrstCommandResetsRegisters : Prop :=
  (∀ s : State, ∃ t : State, exec .srst s = .next t ∧
    t.inLen = 0#16 ∧ t.outLen = 0#17 ∧ t.csum = 0#16 ∧ t.icmpId = 0#16 ∧ t.icmpSeq = 0#16 ∧
    t.ipSrc = 0#32 ∧ t.ipDst = 0#32 ∧ t.ethDst = 0#48 ∧ t.ethSrc = 0#48 ∧
    t.status = { done := false, err := false, errcode := 0#4 } ∧
    (∀ a, t.inBuf.read a = s.inBuf.read a) ∧ (∀ a, t.outBuf.read a = s.outBuf.read a) ∧ SamePort s t) ∧
  exec .srst State.reset = .next State.reset

/-- 10_state.md R29: after a command that frames or checksums, no `OUT` byte at or beyond `OUT_LEN` holds a value. That the
model forgets the older bytes there is its reading of "a command may have used that storage as scratch" (DEDUCED, log
entry 4), no rule of the spec. -/
def Obligations.OutputBeyondResultIsUnspecified : Prop :=
  ∀ (i : Instr) (s t : State), i = .csum ∨ i = .icmp ∨ i = .ipv4 ∨ i = .eth ∨ i = .ping →
    exec i s = .next t → t.status.err = false → ∀ a, t.outLen.toNat ≤ a → t.outBuf.read a = none

/-! ## Errors -/

/-- R170, R173: which errors a `CMD` write ends with, exactly when, and that an error leaves `STATUS` and `OUT_LEN` changed
and nothing else. -/
def Obligations.ErrorsHaveExactCauses : Prop :=
  ∀ (s t : State) (rest : List PortInput) (v : Word48),
    step (s.facing (regWriteInput 0x0#17 v) rest) = .next t →
    (t.status.errcode = 1#4 ↔ 0x07 ≤ (v.setWidth 8 : Byte).toNat) ∧
    (t.status.errcode = 2#4 ↔
      ((v.setWidth 8 : Byte) = 0x03#8 ∧ 65516 ≤ s.inLen.toNat) ∨ ((v.setWidth 8 : Byte) = 0x06#8 ∧ 65508 ≤ s.inLen.toNat)) ∧
    (t.status.errcode = 3#4 ↔ (v.setWidth 8 : Byte) = 0x05#8 ∧ 65535 < s.outLen.toNat) ∧
    t.status.errcode.toNat ≤ 3 ∧ (t.status.err = true ↔ t.status.errcode ≠ 0#4) ∧
    (t.status.err = true →
      t = failedWith t.status.errcode { s with pending := rest, response := .writeDone })

/-- 10_state.md R34: a command ends in a fault exactly when it reads an input byte that has not been written since reset;
the fault is the one fault; no command is refused. -/
def Obligations.FaultExactlyOnUnwrittenInput : Prop :=
  ∀ (i : Instr) (s : State),
    (∀ f, exec i s = .fault f ↔
      f = .unwrittenInput ∧ ReadsInput i s ∧ ∃ k, k < s.inLen.toNat ∧ s.inBuf.read k = none) ∧
    (∀ r, exec i s ≠ .refused r)

/-- 70_reset_and_hazards.md R203, R211: once every `IN` byte below `IN_LEN` has been written, every step completes,
whatever the host presents; and no step is ever refused. -/
def Obligations.EveryStepCompletesOnWrittenInput : Prop :=
  ∀ s : State, (InputWritten s → ∃ t, step s = .next t) ∧ ∀ r, step s ≠ .refused r

/-! ## Rules about the whole machine -/

/-- R22: after every `CMD` write `STATUS` describes that command, after reset both flags are 0, and nothing else writes
`STATUS`; no command reads it. -/
def Obligations.StatusDescribesLastCommand : Prop :=
  (∀ (s t : State) (rest : List PortInput) (v : Word48),
    step (s.facing (regWriteInput 0x0#17 v) rest) = .next t →
    ((v.setWidth 8 : Byte) = 0x00#8 → t.status.done = false ∧ t.status.err = false) ∧
    ((v.setWidth 8 : Byte) ≠ 0x00#8 → t.status.done = !t.status.err) ∧
    (t.status.err = false → t.status.errcode = 0#4)) ∧
  (∀ (s t : State) (rest : List PortInput) (p : PortInput), p.rst = true →
    step (s.facing p rest) = .next t → t.status.done = false ∧ t.status.err = false) ∧
  (∀ (s t : State) (rest : List PortInput) (p : PortInput), p.rst = false → p.writesCmd = false →
    step (s.facing p rest) = .next t → t.status = s.status) ∧
  (∀ (s : State) (st : Status) (rest : List PortInput) (v : Word48),
    step ({ s with status := st }.facing (regWriteInput 0x0#17 v) rest) =
      step (s.facing (regWriteInput 0x0#17 v) rest))

/-- 10_state.md R17, register by register: an operand register changes only at an edge at which the host writes that very
register, by its number, or issues `SRST`, or asserts `rst`. -/
def Obligations.OperandRegistersAreTheHosts : Prop :=
  ∀ (s t : State) (rest : List PortInput) (p : PortInput), step (s.facing p rest) = .next t →
    (t.icmpId ≠ s.icmpId → p.writesRegister 0x5#17 = true ∨ p.issues .srst = true ∨ p.rst = true) ∧
    (t.icmpSeq ≠ s.icmpSeq → p.writesRegister 0x6#17 = true ∨ p.issues .srst = true ∨ p.rst = true) ∧
    (t.ipSrc ≠ s.ipSrc → p.writesRegister 0x7#17 = true ∨ p.issues .srst = true ∨ p.rst = true) ∧
    (t.ipDst ≠ s.ipDst → p.writesRegister 0x8#17 = true ∨ p.issues .srst = true ∨ p.rst = true) ∧
    (t.ethDst ≠ s.ethDst → p.writesRegister 0x9#17 = true ∨ p.issues .srst = true ∨ p.rst = true) ∧
    (t.ethSrc ≠ s.ethSrc → p.writesRegister 0xA#17 = true ∨ p.issues .srst = true ∨ p.rst = true)

/-- R25: the register `CSUM` holds the value of the last `CSUM` command; every other command but `SRST`, and every other
transaction, leaves it unchanged. -/
def Obligations.CsumRegisterHasOneWriter : Prop :=
  (∀ (s t : State) (p : List Byte), InputIs s p → exec .csum s = .next t → t.csum = csum16 p) ∧
  (∀ (i : Instr) (s t : State), i ≠ .csum → i ≠ .srst → exec i s = .next t → t.csum = s.csum) ∧
  (∀ s t : State, exec .srst s = .next t → t.csum = 0#16) ∧
  (∀ (s t : State) (rest : List PortInput) (p : PortInput), p.rst = false → p.writesCmd = false →
    step (s.facing p rest) = .next t → t.csum = s.csum)

/-- 10_state.md R24, R28: only a command or reset changes `OUT_LEN` or an `OUT` byte; a completing `XFER` changes neither. -/
def Obligations.OutputIsWrittenByCommandsOnly : Prop :=
  (∀ (s t : State) (rest : List PortInput) (p : PortInput), p.rst = false → p.writesCmd = false →
    step (s.facing p rest) = .next t → SameOutput s t) ∧
  (∀ s t : State, exec .xfer s = .next t → t.status.err = false → SameOutput s t)

/-- 10_state.md R30: commands other than `XFER` and `SRST` leave `IN`, `IN_LEN` and every operand register unchanged; `XFER`
leaves the operand registers and the `OUT` bytes unchanged. -/
def Obligations.CommandsLeaveTheirInputs : Prop :=
  ∀ (i : Instr) (s t : State), exec i s = .next t →
    (i ≠ .xfer → i ≠ .srst → SameInput s t ∧ SameOperands s t) ∧
    (i = .xfer → SameOperands s t ∧ ∀ a, t.outBuf.read a = s.outBuf.read a)

/-- 00_scope.md R2, its last sentence (marked "[derived: from this rule and `10_state.md` rule R30]" in the spec): the
result of a command depends on its inputs only. Two states that agree on the operand registers, `IN_LEN` and the input
bytes (for `XFER`: on `OUT_LEN` and the result bytes), whatever else they hold, give the same result. -/
def Obligations.ResultDependsOnInputsOnly : Prop :=
  (∀ (i : Instr) (s s' t : State), i ≠ .xfer → SameOperands s s' → s'.inLen = s.inLen →
    (∀ a, a < s.inLen.toNat → s'.inBuf.read a = s.inBuf.read a) → exec i s = .next t →
    ∃ t' : State, exec i s' = .next t' ∧ t'.status = t.status ∧ t'.outLen = t.outLen ∧
      (∀ a, a < t.outLen.toNat → t'.outBuf.read a = t.outBuf.read a) ∧ (i = .csum → t'.csum = t.csum)) ∧
  (∀ s s' t : State, s'.outLen = s.outLen → (∀ a, a < s.outLen.toNat → s'.outBuf.read a = s.outBuf.read a) →
    exec .xfer s = .next t →
    ∃ t' : State, exec .xfer s' = .next t' ∧ t'.status = t.status ∧ t'.outLen = t.outLen ∧
      (t.status.err = false → t'.inLen = t.inLen ∧ ∀ a, a < t.inLen.toNat → t'.inBuf.read a = t.inBuf.read a))

/-- 20_memory.md R54: a command run again at once changes nothing more. An `XFER` that raises is shut out here: the error
sets `OUT_LEN`, its own input, to 0, so R54's "for every command" cannot hold of it beside R152 and R173; what it does is
the next statement (log entry 6). -/
def Obligations.RepeatedCommandChangesNothing : Prop :=
  ∀ (i : Instr) (s t : State), (i = .xfer → s.outLen.toNat ≤ 65535) → exec i s = .next t → exec i t = .next t

/-- R152 with R173: an `XFER` that raises `XferLen` loses the result, so the next `XFER` completes with an empty input (log
entry 6). -/
def Obligations.XferAfterXferLenIsEmpty : Prop :=
  ∀ s : State, 65536 ≤ s.outLen.toNat → ∃ t u : State,
    exec .xfer s = .next t ∧ t = failedWith 3#4 s ∧
    exec .xfer t = .next u ∧ Completed u ∧ u.inLen = 0#16 ∧ u.outLen = 0#17 ∧ ∀ a, u.inBuf.read a = s.inBuf.read a

/-- R154: running the layers one at a time and running `PING` give the same result, the same `OUT_LEN` and `DONE`, and
differ afterwards only in the input; above 65507 bytes both fail, where the rule says. The spec marks R154 as its own
inference ("[derived: from rules R150, R151, R152 and ..."). -/
def Obligations.LayerByLayerEqualsPing : Prop :=
  (∀ (s : State) (p : List Byte), InputIs s p → s.inLen.toNat ≤ 65507 → ∃ (t u : State) (k : List Byte),
    runCommands [.icmp, .xfer, .ipv4, .xfer, .eth] s = .next t ∧ runCommands [.ping] s = .next u ∧
    t = { u with inBuf := t.inBuf, inLen := t.inLen } ∧
    t.outLen.toNat = 42 + s.inLen.toNat ∧ t.outLen = u.outLen ∧
    (∀ a, a < t.outLen.toNat → t.outBuf.read a = u.outBuf.read a) ∧ t.status.done = true ∧
    ipv4Encode s.ipSrc s.ipDst (icmpEcho s.icmpId s.icmpSeq p) = .ok k ∧ InputIs t k ∧
    t.inLen.toNat = 28 + s.inLen.toNat ∧ InputIs u p) ∧
  (∀ (s : State) (p : List Byte), InputIs s p → 65507 < s.inLen.toNat →
    (∃ u : State, runCommands [.ping] s = .next u ∧ u.status = { done := false, err := true, errcode := 2#4 }) ∧
    (s.inLen.toNat ≤ 65527 → ∃ t u : State,
      runCommands [.icmp, .xfer] s = .next t ∧ Completed t ∧
      runCommands [.ipv4] t = .next u ∧ u.status = { done := false, err := true, errcode := 2#4 }) ∧
    (65527 < s.inLen.toNat → ∃ t u : State,
      runCommands [.icmp] s = .next t ∧ Completed t ∧
      runCommands [.xfer] t = .next u ∧ u.status = { done := false, err := true, errcode := 3#4 }))

/-- The invariant holds right after reset. -/
def Obligations.ResetMeetsInvariant : Prop := StateInv State.reset

/-- Every step keeps the invariant, from every state that meets it and whatever the host presents: both buffers keep their
canonical form and their bounds, `OUT[0..OUT_LEN)` is defined, and `STATUS` stays legal (10_state.md R21, R22, R24, R27,
R28; 44_compose_and_system.md R152; 60_exceptions.md R170, R173). -/
def Obligations.StepKeepsInvariant : Prop :=
  ∀ s t : State, StateInv s → step s = .next t → StateInv t
end

