-- ==== Sys2Proof/Laws/Checksum.lean ====
section
/-!
SUPPORT. What the pieces of the checksum generator do: one-word addition keeps the residue modulo 65535 and keeps zero
apart from non-zero, the words of a padded sequence, and the two bytes of a value.
-/

namespace Sys2Proof.Machine

theorem word_toNat (hi lo : Byte) : (word hi lo).toNat = hi.toNat * 256 + lo.toNat := by
  rw [word, BitVec.toNat_append, Nat.shiftLeft_eq, Nat.mul_comm, ← Nat.two_pow_add_eq_or_of_lt lo.isLt, Nat.mul_comm]

/-- A 16-bit value is the word of its two bytes, high byte first. -/
theorem word_extract (v : Word16) : word (v.extractLsb' 8 8) (v.extractLsb' 0 8) = v := by
  apply BitVec.eq_of_toNat_eq
  rw [word_toNat, BitVec.extractLsb'_toNat, BitVec.extractLsb'_toNat, Nat.shiftRight_eq_div_pow]
  have := v.isLt
  simp only [Nat.shiftRight_zero]
  omega

/-- `oc_add` on numbers: the carry out of bit 15 is added back at bit 0 (40_checksum.md R82). -/
theorem ocAdd_toNat (a w : Word16) :
    (ocAdd a w).toNat =
      if a.toNat + w.toNat > 0xFFFF then a.toNat + w.toNat - 0x10000 + 1 else a.toNat + w.toNat := by
  have := a.isLt
  have := w.isLt
  rw [ocAdd]
  split <;> rw [BitVec.toNat_ofNat, Nat.mod_eq_of_lt] <;> omega

/-- One addition is the closed form of one addition (40_checksum.md R83: residue kept, only zero to zero). -/
theorem closedFold_ocAdd (s : Nat) (a w : Word16) (h : a.toNat = closedFold s) :
    (ocAdd a w).toNat = closedFold (s + w.toNat) := by
  have := w.isLt
  rw [ocAdd_toNat, h, closedFold, closedFold]
  split <;> split <;> split <;> omega

/-- The accumulator after a list of words is the closed form of their plain sum, from any start. -/
theorem foldl_ocAdd_toNat (ws : List Word16) (s : Nat) (a : Word16) (h : a.toNat = closedFold s) :
    (ws.foldl ocAdd a).toNat = closedFold (s + (ws.map (fun w => w.toNat)).sum) := by
  induction ws generalizing s a with
  | nil => simpa using h
  | cons w ws ih =>
    rw [List.foldl_cons, ih (s + w.toNat) (ocAdd a w) (closedFold_ocAdd s a w h), List.map_cons, List.sum_cons,
      Nat.add_assoc]

/-- An even-length sequence of bytes pairs up without a rest: its words, then those of what follows. -/
theorem wordsOf_append {b : List Byte} (h : b.length % 2 = 0) (c : List Byte) :
    wordsOf (b ++ c) = wordsOf b ++ wordsOf c := by
  induction b using wordsOf.induct with
  | case1 hi lo rest ih =>
    simp only [List.length_cons] at h
    simp only [List.cons_append, wordsOf]
    rw [ih (by omega)]
  | case2 x => simp at h
  | case3 => rfl

theorem pad_even {b : List Byte} (h : b.length % 2 = 0) : pad b = b := if_pos h

theorem pad_odd {b : List Byte} (h : b.length % 2 = 1) : pad b = b ++ [0x00#8] := if_neg (by omega)

/-- Padding touches only the end: an even-length front passes through it. -/
theorem pad_append {b : List Byte} (h : b.length % 2 = 0) (c : List Byte) : pad (b ++ c) = b ++ pad c := by
  unfold pad
  rw [List.length_append]
  by_cases hc : c.length % 2 = 0
  · rw [if_pos (by omega), if_pos hc]
  · rw [if_neg (by omega), if_neg hc, List.append_assoc]

/-- The plain sum of an even-length front and the rest. -/
theorem plainSum_append {b : List Byte} (h : b.length % 2 = 0) (c : List Byte) :
    plainSum (b ++ c) = plainSum b + plainSum c := by
  rw [plainSum, plainSum, plainSum, pad_append h, pad_even h, wordsOf_append h, List.map_append, List.sum_append]

@[simp] theorem plainSum_nil : plainSum [] = 0 := rfl

@[simp] theorem plainSum_pair (hi lo : Byte) : plainSum [hi, lo] = hi.toNat * 256 + lo.toNat := by
  simp [plainSum, pad, wordsOf, word_toNat]

@[simp] theorem be16_length (v : Word16) : (be16 v).length = 2 := rfl
@[simp] theorem be32_length (v : Word32) : (be32 v).length = 4 := rfl
@[simp] theorem be48_length (v : Word48) : (be48 v).length = 6 := rfl
@[simp] theorem csumBytes_length (b : List Byte) : (csumBytes b).length = 2 := rfl

/-! ## The closed form of a folded sum -/

theorem closedFold_le (s : Nat) : closedFold s ≤ 0xFFFF := by
  unfold closedFold
  split <;> omega

/-- Only zero folds to zero. -/
theorem closedFold_eq_zero (s : Nat) : closedFold s = 0 ↔ s = 0 := by
  unfold closedFold
  split <;> omega

/-- The positive multiples of 65535, and only they, fold to 0xFFFF. -/
theorem closedFold_eq_max (s : Nat) : closedFold s = 0xFFFF ↔ 0 < s ∧ s % 65535 = 0 := by
  unfold closedFold
  split <;> omega

end Sys2Proof.Machine
end

