-- ==== Sys2Proof/Laws/Memory.lean ====
section
/-!
SUPPORT. What the operations on a buffer do, said once: how each changes the byte an index reads as, and that each keeps
the canonical form. Provers cite these instead of unfolding the operations.
-/

namespace Sys2Proof.Machine

/-! ## Reading -/

@[simp] theorem read_nil (a : Nat) : Memory.read [] a = none := rfl

@[simp] theorem read_cons (k : Nat) (b : Byte) (m : Memory) (a : Nat) :
    Memory.read ((k, b) :: m) a = if k = a then some b else Memory.read m a := rfl

theorem read_append (m m' : Memory) (a : Nat) :
    Memory.read (m ++ m') a = (Memory.read m a).or (Memory.read m' a) := by
  induction m with
  | nil => rfl
  | cons c m ih =>
    obtain ⟨k, b⟩ := c
    by_cases h : k = a <;> simp [h, ih]

/-- A list of cells laid out from `base` reads as the bytes, and as nothing elsewhere. -/
theorem read_cellsAt (bs : List Byte) (base a : Nat) :
    Memory.read (Memory.cellsAt base bs) a = if base ≤ a then bs[a - base]? else none := by
  induction bs generalizing base with
  | nil => simp [Memory.cellsAt]
  | cons b bs ih =>
    rw [Memory.cellsAt, read_cons, ih]
    rcases Nat.lt_trichotomy base a with h | h | h
    · have h1 : a - base = (a - (base + 1)) + 1 := by omega
      rw [if_neg (by omega), if_pos (by omega), if_pos (by omega), h1, List.getElem?_cons_succ]
    · subst h; simp
    · rw [if_neg (by omega), if_neg (by omega), if_neg (by omega)]

/-- A result laid out from index 0 reads as its bytes. -/
@[simp] theorem read_cellsAt_zero (bs : List Byte) (a : Nat) : Memory.read (Memory.cellsAt 0 bs) a = bs[a]? := by
  simp [read_cellsAt]

theorem read_below (m : Memory) (k a : Nat) :
    Memory.read (m.below k) a = if a < k then Memory.read m a else none := by
  induction m with
  | nil => simp [Memory.below]
  | cons c m ih =>
    obtain ⟨j, b⟩ := c
    simp only [Memory.below] at ih ⊢
    by_cases hj : j < k
    · rw [List.filter_cons_of_pos (by simpa using hj), read_cons, read_cons, ih]
      split <;> simp_all
    · rw [List.filter_cons_of_neg (by simpa using hj), read_cons, ih]
      by_cases ha : a < k
      · rw [if_pos ha, if_pos ha, if_neg (by omega)]
      · rw [if_neg ha, if_neg ha]

theorem read_above (m : Memory) (k a : Nat) :
    Memory.read (m.above k) a = if k ≤ a then Memory.read m a else none := by
  induction m with
  | nil => simp [Memory.above]
  | cons c m ih =>
    obtain ⟨j, b⟩ := c
    simp only [Memory.above] at ih ⊢
    by_cases hj : k ≤ j
    · rw [List.filter_cons_of_pos (by simpa using hj), read_cons, read_cons, ih]
      split <;> simp_all
    · rw [List.filter_cons_of_neg (by simpa using hj), read_cons, ih]
      by_cases ha : k ≤ a
      · rw [if_pos ha, if_pos ha, if_neg (by omega)]
      · rw [if_neg ha, if_neg ha]

/-- Read after store: the stored bytes where they were stored, what was there before everywhere else. -/
theorem read_store (m : Memory) (base : Nat) (bs : List Byte) (a : Nat) :
    Memory.read (m.store base bs) a =
      if base ≤ a ∧ a < base + bs.length then bs[a - base]? else Memory.read m a := by
  rw [Memory.store, read_append, read_append, read_below, read_above, read_cellsAt]
  rcases Nat.lt_or_ge a base with h | h
  · rw [if_pos h, if_neg (by omega), if_neg (by omega), if_neg (by omega)]; simp
  · rcases Nat.lt_or_ge a (base + bs.length) with h' | h'
    · have hs : (bs[a - base]?).isSome := by
        rw [List.getElem?_eq_getElem (by omega : a - base < bs.length)]; rfl
      rw [if_neg (by omega), if_pos h, if_neg (by omega), if_pos ⟨h, h'⟩]
      simp
    · have hn : bs[a - base]? = none := List.getElem?_eq_none (by omega)
      rw [if_neg (by omega), if_pos h, if_pos h', if_neg (by omega), hn]
      simp

/-- Copying the first `n` bytes: below `n` the source, at or above it the old contents. -/
theorem read_copyFirst (src dst : Memory) (n a : Nat) :
    Memory.read (Memory.copyFirst src dst n) a = if a < n then Memory.read src a else Memory.read dst a := by
  rw [Memory.copyFirst, read_append, read_below, read_above]
  by_cases h : a < n
  · simp [h, Nat.not_le.mpr h]
  · simp [h, Nat.not_lt.mp h]

/-- A range reads as `p` exactly when every index of it reads as its byte of `p`. -/
theorem readRange_eq_some (m : Memory) (n base : Nat) (p : List Byte) :
    m.readRange base n = some p ↔ p.length = n ∧ ∀ i, i < n → m.read (base + i) = p[i]? := by
  induction n generalizing base p with
  | zero =>
    constructor
    · intro h
      cases Option.some.inj h
      exact ⟨rfl, fun i hi => absurd hi (Nat.not_lt_zero i)⟩
    · rintro ⟨h, -⟩
      rw [List.length_eq_zero_iff.mp h]; rfl
  | succ n ih =>
    constructor
    · intro h
      rw [Memory.readRange] at h
      split at h
      · rename_i b bs hb hbs
        cases Option.some.inj h
        obtain ⟨hl, hr⟩ := (ih (base + 1) bs).mp hbs
        refine ⟨by simp [hl], fun i hi => ?_⟩
        cases i with
        | zero => simpa using hb
        | succ i =>
          rw [List.getElem?_cons_succ, ← hr i (by omega)]
          congr 1; omega
      · cases h
    · rintro ⟨hl, hr⟩
      cases p with
      | nil => simp at hl
      | cons b bs =>
        have hb : m.read base = some b := by simpa using hr 0 (Nat.succ_pos n)
        have hbs : m.readRange (base + 1) n = some bs := by
          refine (ih (base + 1) bs).mpr ⟨by simpa using hl, fun i hi => ?_⟩
          have := hr (i + 1) (by omega)
          rw [List.getElem?_cons_succ] at this
          rw [← this]; congr 1; omega
        rw [Memory.readRange, hb, hbs]

/-- A range does not read exactly when some index of it holds no value. -/
theorem readRange_eq_none (m : Memory) (n base : Nat) :
    m.readRange base n = none ↔ ∃ i, i < n ∧ m.read (base + i) = none := by
  induction n generalizing base with
  | zero => simp [Memory.readRange]
  | succ n ih =>
    have key : m.readRange base (n + 1) = none ↔ m.read base = none ∨ m.readRange (base + 1) n = none := by
      rw [Memory.readRange]
      cases m.read base <;> cases m.readRange (base + 1) n <;> simp
    rw [key, ih]
    constructor
    · rintro (h | ⟨i, hi, h⟩)
      · exact ⟨0, Nat.succ_pos n, h⟩
      · exact ⟨i + 1, by omega, by rw [← h]; congr 1; omega⟩
    · rintro ⟨i, hi, h⟩
      cases i with
      | zero => exact .inl h
      | succ i => exact .inr ⟨i, by omega, by rw [← h]; congr 1; omega⟩

/-! ## The canonical form -/

theorem wf_nil (size : Nat) : Memory.wf size [] := ⟨List.Pairwise.nil, by simp⟩

theorem mem_cellsAt {bs : List Byte} {base : Nat} {c : Host.Cell} (h : c ∈ Memory.cellsAt base bs) :
    base ≤ c.1 ∧ c.1 < base + bs.length := by
  induction bs generalizing base with
  | nil => cases h
  | cons b bs ih =>
    rcases List.mem_cons.mp h with rfl | h
    · exact ⟨Nat.le_refl _, by simp⟩
    · have := ih h
      simp only [List.length_cons]
      omega

theorem cellsAt_rising (bs : List Byte) (base : Nat) :
    (Memory.cellsAt base bs).Pairwise (fun x y => x.1 < y.1) := by
  induction bs generalizing base with
  | nil => exact List.Pairwise.nil
  | cons b bs ih =>
    refine List.Pairwise.cons (fun c hc => ?_) (ih (base + 1))
    have := mem_cellsAt hc
    show base < c.1
    omega

/-- A result that fits its buffer is in the canonical form. -/
theorem wf_cellsAt {bs : List Byte} {base size : Nat} (h : base + bs.length ≤ size) :
    Memory.wf size (Memory.cellsAt base bs) :=
  ⟨cellsAt_rising bs base, fun _ hc => Nat.lt_of_lt_of_le (mem_cellsAt hc).2 h⟩

theorem wf_below {m : Memory} {size : Nat} (h : m.wf size) (k : Nat) : (m.below k).wf size :=
  ⟨h.1.filter _, fun c hc => h.2 c (List.mem_filter.mp hc).1⟩

theorem wf_above {m : Memory} {size : Nat} (h : m.wf size) (k : Nat) : (m.above k).wf size :=
  ⟨h.1.filter _, fun c hc => h.2 c (List.mem_filter.mp hc).1⟩

theorem lt_of_mem_below {m : Memory} {k : Nat} {c : Host.Cell} (h : c ∈ m.below k) : c.1 < k := by
  simpa using (List.mem_filter.mp h).2

theorem le_of_mem_above {m : Memory} {k : Nat} {c : Host.Cell} (h : c ∈ m.above k) : k ≤ c.1 := by
  simpa using (List.mem_filter.mp h).2

/-- Two canonical buffers, all indices of the one below all of the other, are canonical together. -/
theorem wf_append {m m' : Memory} {size k : Nat} (h : m.wf size) (h' : m'.wf size)
    (lo : ∀ c ∈ m, c.1 < k) (hi : ∀ c ∈ m', k ≤ c.1) : Memory.wf size (m ++ m') :=
  ⟨List.pairwise_append.mpr ⟨h.1, h'.1, fun x hx y hy => Nat.lt_of_lt_of_le (lo x hx) (hi y hy)⟩,
    fun c hc => (List.mem_append.mp hc).elim (h.2 c) (h'.2 c)⟩

/-- A store inside the buffer keeps the canonical form. -/
theorem wf_store {m : Memory} {size base : Nat} {bs : List Byte} (h : m.wf size) (hb : base + bs.length ≤ size) :
    (m.store base bs).wf size := by
  refine wf_append (k := base) (wf_below h base)
    (wf_append (k := base + bs.length) (wf_cellsAt hb) (wf_above h _) (fun c hc => (mem_cellsAt hc).2)
      (fun c hc => le_of_mem_above hc))
    (fun c hc => lt_of_mem_below hc) (fun c hc => ?_)
  rcases List.mem_append.mp hc with hc | hc
  · exact (mem_cellsAt hc).1
  · have := le_of_mem_above hc
    omega

/-- A copy between canonical buffers keeps the canonical form, if what it copies fits the destination. -/
theorem wf_copyFirst {src dst : Memory} {size size' n : Nat} (h : src.wf size') (h' : dst.wf size) (hn : n ≤ size) :
    (Memory.copyFirst src dst n).wf size := by
  refine wf_append (k := n) ⟨(wf_below h n).1, fun c hc => ?_⟩ (wf_above h' n) (fun c hc => lt_of_mem_below hc)
    (fun c hc => le_of_mem_above hc)
  have := lt_of_mem_below hc
  omega

/-- In the canonical form an index below every entry reads as nothing. -/
theorem read_eq_none_of_lt {m : Memory} {a : Nat} (h : ∀ c ∈ m, a < c.1) : m.read a = none := by
  induction m with
  | nil => rfl
  | cons c m ih =>
    obtain ⟨k, b⟩ := c
    have hk : a < k := h (k, b) (List.mem_cons_self ..)
    rw [read_cons, if_neg (by omega)]
    exact ih fun c hc => h c (List.mem_cons_of_mem _ hc)

/-- Equal buffers are equal data: two canonical buffers that read alike at every index are the same list. -/
theorem eq_of_read_eq {size : Nat} {m m' : Memory} (h : m.wf size) (h' : m'.wf size)
    (hr : ∀ a, m.read a = m'.read a) : m = m' := by
  induction m generalizing m' with
  | nil =>
    cases m' with
    | nil => rfl
    | cons c m' =>
      obtain ⟨k, b⟩ := c
      simpa using hr k
  | cons c m ih =>
    obtain ⟨k, b⟩ := c
    obtain ⟨hk, hm⟩ := List.pairwise_cons.mp h.1
    cases m' with
    | nil => simpa using hr k
    | cons c' m' =>
      obtain ⟨k', b'⟩ := c'
      obtain ⟨hk', hm'⟩ := List.pairwise_cons.mp h'.1
      have hkk : k = k' := by
        rcases Nat.lt_trichotomy k k' with hlt | heq | hgt
        · have := hr k
          rw [read_cons, if_pos rfl, read_cons, if_neg (by omega),
            read_eq_none_of_lt (m := m') fun c hc => Nat.lt_trans hlt (hk' c hc)] at this
          cases this
        · exact heq
        · have := hr k'
          rw [read_cons, if_neg (by omega), read_cons, if_pos rfl,
            read_eq_none_of_lt (m := m) fun c hc => Nat.lt_trans hgt (hk c hc)] at this
          cases this
      subst hkk
      have hbb : b = b' := by simpa using hr k
      subst hbb
      congr 1
      refine ih ⟨hm, fun c hc => h.2 c (List.mem_cons_of_mem _ hc)⟩
        ⟨hm', fun c hc => h'.2 c (List.mem_cons_of_mem _ hc)⟩ fun a => ?_
      by_cases hak : k = a
      · subst hak
        rw [read_eq_none_of_lt (m := m) hk, read_eq_none_of_lt (m := m') hk']
      · simpa [hak] using hr a

/-! ## Copying twice -/

/-- Copying the same bytes a second time changes nothing, in the data and not only in what it reads as. -/
theorem copyFirst_copyFirst (src dst : Memory) (n : Nat) :
    Memory.copyFirst src (Memory.copyFirst src dst n) n = Memory.copyFirst src dst n := by
  have h1 : (src.below n).above n = [] := by
    rw [Memory.above, List.filter_eq_nil_iff]
    intro c hc
    have := lt_of_mem_below hc
    simpa using this
  have h2 : (dst.above n).above n = dst.above n := by
    rw [Memory.above, List.filter_eq_self]
    intro c hc
    simpa using le_of_mem_above hc
  have h3 : (Memory.copyFirst src dst n).above n = dst.above n := by
    rw [Memory.copyFirst]
    show List.filter _ (src.below n ++ dst.above n) = _
    rw [List.filter_append]
    show (src.below n).above n ++ (dst.above n).above n = _
    rw [h1, h2, List.nil_append]
  rw [Memory.copyFirst, h3]; rfl

end Sys2Proof.Machine
end

