-- ==== Sys2Proof/Laws/State.lean ====
section
/-!
SUPPORT. One lemma per field per named update of the state, each true by rfl, so that no proof unfolds a record update.
-/

namespace Sys2Proof.Machine

/-! Command start clears `STATUS` alone (60_exceptions.md R171). -/

@[simp] theorem commandStart_icmpId (s : State) : (commandStart s).icmpId = s.icmpId := rfl
@[simp] theorem commandStart_icmpSeq (s : State) : (commandStart s).icmpSeq = s.icmpSeq := rfl
@[simp] theorem commandStart_ipSrc (s : State) : (commandStart s).ipSrc = s.ipSrc := rfl
@[simp] theorem commandStart_ipDst (s : State) : (commandStart s).ipDst = s.ipDst := rfl
@[simp] theorem commandStart_ethDst (s : State) : (commandStart s).ethDst = s.ethDst := rfl
@[simp] theorem commandStart_ethSrc (s : State) : (commandStart s).ethSrc = s.ethSrc := rfl
@[simp] theorem commandStart_status (s : State) : (commandStart s).status = clearStatus := rfl
@[simp] theorem commandStart_inLen (s : State) : (commandStart s).inLen = s.inLen := rfl
@[simp] theorem commandStart_outLen (s : State) : (commandStart s).outLen = s.outLen := rfl
@[simp] theorem commandStart_csum (s : State) : (commandStart s).csum = s.csum := rfl
@[simp] theorem commandStart_inBuf (s : State) : (commandStart s).inBuf = s.inBuf := rfl
@[simp] theorem commandStart_outBuf (s : State) : (commandStart s).outBuf = s.outBuf := rfl
@[simp] theorem commandStart_response (s : State) : (commandStart s).response = s.response := rfl
@[simp] theorem commandStart_pending (s : State) : (commandStart s).pending = s.pending := rfl
@[simp] theorem commandStart_draws (s : State) : (commandStart s).draws = s.draws := rfl

/-! `complete` writes `STATUS` alone (60_exceptions.md R172). -/

@[simp] theorem complete_icmpId (s : State) : (complete s).icmpId = s.icmpId := rfl
@[simp] theorem complete_icmpSeq (s : State) : (complete s).icmpSeq = s.icmpSeq := rfl
@[simp] theorem complete_ipSrc (s : State) : (complete s).ipSrc = s.ipSrc := rfl
@[simp] theorem complete_ipDst (s : State) : (complete s).ipDst = s.ipDst := rfl
@[simp] theorem complete_ethDst (s : State) : (complete s).ethDst = s.ethDst := rfl
@[simp] theorem complete_ethSrc (s : State) : (complete s).ethSrc = s.ethSrc := rfl
@[simp] theorem complete_status (s : State) : (complete s).status = { done := true, err := false, errcode := 0#4 } := rfl
@[simp] theorem complete_inLen (s : State) : (complete s).inLen = s.inLen := rfl
@[simp] theorem complete_outLen (s : State) : (complete s).outLen = s.outLen := rfl
@[simp] theorem complete_csum (s : State) : (complete s).csum = s.csum := rfl
@[simp] theorem complete_inBuf (s : State) : (complete s).inBuf = s.inBuf := rfl
@[simp] theorem complete_outBuf (s : State) : (complete s).outBuf = s.outBuf := rfl
@[simp] theorem complete_response (s : State) : (complete s).response = s.response := rfl
@[simp] theorem complete_pending (s : State) : (complete s).pending = s.pending := rfl
@[simp] theorem complete_draws (s : State) : (complete s).draws = s.draws := rfl

/-! `raise` writes `STATUS` and `OUT_LEN` alone (60_exceptions.md R173). -/

@[simp] theorem raise_icmpId (e : CommandError) (s : State) : (raise e s).icmpId = s.icmpId := rfl
@[simp] theorem raise_icmpSeq (e : CommandError) (s : State) : (raise e s).icmpSeq = s.icmpSeq := rfl
@[simp] theorem raise_ipSrc (e : CommandError) (s : State) : (raise e s).ipSrc = s.ipSrc := rfl
@[simp] theorem raise_ipDst (e : CommandError) (s : State) : (raise e s).ipDst = s.ipDst := rfl
@[simp] theorem raise_ethDst (e : CommandError) (s : State) : (raise e s).ethDst = s.ethDst := rfl
@[simp] theorem raise_ethSrc (e : CommandError) (s : State) : (raise e s).ethSrc = s.ethSrc := rfl
@[simp] theorem raise_status (e : CommandError) (s : State) : (raise e s).status = { done := false, err := true, errcode := errorCode e } := rfl
@[simp] theorem raise_inLen (e : CommandError) (s : State) : (raise e s).inLen = s.inLen := rfl
@[simp] theorem raise_outLen (e : CommandError) (s : State) : (raise e s).outLen = 0#17 := rfl
@[simp] theorem raise_csum (e : CommandError) (s : State) : (raise e s).csum = s.csum := rfl
@[simp] theorem raise_inBuf (e : CommandError) (s : State) : (raise e s).inBuf = s.inBuf := rfl
@[simp] theorem raise_outBuf (e : CommandError) (s : State) : (raise e s).outBuf = s.outBuf := rfl
@[simp] theorem raise_response (e : CommandError) (s : State) : (raise e s).response = s.response := rfl
@[simp] theorem raise_pending (e : CommandError) (s : State) : (raise e s).pending = s.pending := rfl
@[simp] theorem raise_draws (e : CommandError) (s : State) : (raise e s).draws = s.draws := rfl

/-! Delivering a result writes `OUT`, `OUT_LEN` and `STATUS` alone. -/

@[simp] theorem deliver_icmpId (b : List Byte) (s : State) : (deliver b s).icmpId = s.icmpId := rfl
@[simp] theorem deliver_icmpSeq (b : List Byte) (s : State) : (deliver b s).icmpSeq = s.icmpSeq := rfl
@[simp] theorem deliver_ipSrc (b : List Byte) (s : State) : (deliver b s).ipSrc = s.ipSrc := rfl
@[simp] theorem deliver_ipDst (b : List Byte) (s : State) : (deliver b s).ipDst = s.ipDst := rfl
@[simp] theorem deliver_ethDst (b : List Byte) (s : State) : (deliver b s).ethDst = s.ethDst := rfl
@[simp] theorem deliver_ethSrc (b : List Byte) (s : State) : (deliver b s).ethSrc = s.ethSrc := rfl
@[simp] theorem deliver_status (b : List Byte) (s : State) : (deliver b s).status = { done := true, err := false, errcode := 0#4 } := rfl
@[simp] theorem deliver_inLen (b : List Byte) (s : State) : (deliver b s).inLen = s.inLen := rfl
@[simp] theorem deliver_outLen (b : List Byte) (s : State) : (deliver b s).outLen = BitVec.ofNat 17 b.length := rfl
@[simp] theorem deliver_csum (b : List Byte) (s : State) : (deliver b s).csum = s.csum := rfl
@[simp] theorem deliver_inBuf (b : List Byte) (s : State) : (deliver b s).inBuf = s.inBuf := rfl
@[simp] theorem deliver_outBuf (b : List Byte) (s : State) : (deliver b s).outBuf = Memory.cellsAt 0 b := rfl
@[simp] theorem deliver_response (b : List Byte) (s : State) : (deliver b s).response = s.response := rfl
@[simp] theorem deliver_pending (b : List Byte) (s : State) : (deliver b s).pending = s.pending := rfl
@[simp] theorem deliver_draws (b : List Byte) (s : State) : (deliver b s).draws = s.draws := rfl

/-! Answering a read writes the port's outputs alone. -/

@[simp] theorem answer_icmpId (d : Word48) (s : State) : (answer d s).icmpId = s.icmpId := rfl
@[simp] theorem answer_icmpSeq (d : Word48) (s : State) : (answer d s).icmpSeq = s.icmpSeq := rfl
@[simp] theorem answer_ipSrc (d : Word48) (s : State) : (answer d s).ipSrc = s.ipSrc := rfl
@[simp] theorem answer_ipDst (d : Word48) (s : State) : (answer d s).ipDst = s.ipDst := rfl
@[simp] theorem answer_ethDst (d : Word48) (s : State) : (answer d s).ethDst = s.ethDst := rfl
@[simp] theorem answer_ethSrc (d : Word48) (s : State) : (answer d s).ethSrc = s.ethSrc := rfl
@[simp] theorem answer_status (d : Word48) (s : State) : (answer d s).status = s.status := rfl
@[simp] theorem answer_inLen (d : Word48) (s : State) : (answer d s).inLen = s.inLen := rfl
@[simp] theorem answer_outLen (d : Word48) (s : State) : (answer d s).outLen = s.outLen := rfl
@[simp] theorem answer_csum (d : Word48) (s : State) : (answer d s).csum = s.csum := rfl
@[simp] theorem answer_inBuf (d : Word48) (s : State) : (answer d s).inBuf = s.inBuf := rfl
@[simp] theorem answer_outBuf (d : Word48) (s : State) : (answer d s).outBuf = s.outBuf := rfl
@[simp] theorem answer_response (d : Word48) (s : State) : (answer d s).response = .readDone d := rfl
@[simp] theorem answer_pending (d : Word48) (s : State) : (answer d s).pending = s.pending := rfl
@[simp] theorem answer_draws (d : Word48) (s : State) : (answer d s).draws = s.draws := rfl

/-! Reset sets everything but the host's inputs to come and the counter of draws (70_reset_and_hazards.md R200). -/

@[simp] theorem hardReset_icmpId (s : State) : (hardReset s).icmpId = State.reset.icmpId := rfl
@[simp] theorem hardReset_icmpSeq (s : State) : (hardReset s).icmpSeq = State.reset.icmpSeq := rfl
@[simp] theorem hardReset_ipSrc (s : State) : (hardReset s).ipSrc = State.reset.ipSrc := rfl
@[simp] theorem hardReset_ipDst (s : State) : (hardReset s).ipDst = State.reset.ipDst := rfl
@[simp] theorem hardReset_ethDst (s : State) : (hardReset s).ethDst = State.reset.ethDst := rfl
@[simp] theorem hardReset_ethSrc (s : State) : (hardReset s).ethSrc = State.reset.ethSrc := rfl
@[simp] theorem hardReset_status (s : State) : (hardReset s).status = State.reset.status := rfl
@[simp] theorem hardReset_inLen (s : State) : (hardReset s).inLen = State.reset.inLen := rfl
@[simp] theorem hardReset_outLen (s : State) : (hardReset s).outLen = State.reset.outLen := rfl
@[simp] theorem hardReset_csum (s : State) : (hardReset s).csum = State.reset.csum := rfl
@[simp] theorem hardReset_inBuf (s : State) : (hardReset s).inBuf = State.reset.inBuf := rfl
@[simp] theorem hardReset_outBuf (s : State) : (hardReset s).outBuf = State.reset.outBuf := rfl
@[simp] theorem hardReset_response (s : State) : (hardReset s).response = State.reset.response := rfl
@[simp] theorem hardReset_pending (s : State) : (hardReset s).pending = s.pending := rfl
@[simp] theorem hardReset_draws (s : State) : (hardReset s).draws = s.draws := rfl

/-! Copying the result writes `IN` and `IN_LEN` alone (44_compose_and_system.md R152). -/

@[simp] theorem copyResult_icmpId (s : State) : (copyResult s).icmpId = s.icmpId := rfl
@[simp] theorem copyResult_icmpSeq (s : State) : (copyResult s).icmpSeq = s.icmpSeq := rfl
@[simp] theorem copyResult_ipSrc (s : State) : (copyResult s).ipSrc = s.ipSrc := rfl
@[simp] theorem copyResult_ipDst (s : State) : (copyResult s).ipDst = s.ipDst := rfl
@[simp] theorem copyResult_ethDst (s : State) : (copyResult s).ethDst = s.ethDst := rfl
@[simp] theorem copyResult_ethSrc (s : State) : (copyResult s).ethSrc = s.ethSrc := rfl
@[simp] theorem copyResult_status (s : State) : (copyResult s).status = s.status := rfl
@[simp] theorem copyResult_inLen (s : State) : (copyResult s).inLen = s.outLen.setWidth 16 := rfl
@[simp] theorem copyResult_outLen (s : State) : (copyResult s).outLen = s.outLen := rfl
@[simp] theorem copyResult_csum (s : State) : (copyResult s).csum = s.csum := rfl
@[simp] theorem copyResult_inBuf (s : State) : (copyResult s).inBuf = Memory.copyFirst s.outBuf s.inBuf s.outLen.toNat := rfl
@[simp] theorem copyResult_outBuf (s : State) : (copyResult s).outBuf = s.outBuf := rfl
@[simp] theorem copyResult_response (s : State) : (copyResult s).response = s.response := rfl
@[simp] theorem copyResult_pending (s : State) : (copyResult s).pending = s.pending := rfl
@[simp] theorem copyResult_draws (s : State) : (copyResult s).draws = s.draws := rfl

/-! Soft reset writes every register and no buffer (44_compose_and_system.md R153). -/

@[simp] theorem softReset_icmpId (s : State) : (softReset s).icmpId = State.reset.icmpId := rfl
@[simp] theorem softReset_icmpSeq (s : State) : (softReset s).icmpSeq = State.reset.icmpSeq := rfl
@[simp] theorem softReset_ipSrc (s : State) : (softReset s).ipSrc = State.reset.ipSrc := rfl
@[simp] theorem softReset_ipDst (s : State) : (softReset s).ipDst = State.reset.ipDst := rfl
@[simp] theorem softReset_ethDst (s : State) : (softReset s).ethDst = State.reset.ethDst := rfl
@[simp] theorem softReset_ethSrc (s : State) : (softReset s).ethSrc = State.reset.ethSrc := rfl
@[simp] theorem softReset_status (s : State) : (softReset s).status = clearStatus := rfl
@[simp] theorem softReset_inLen (s : State) : (softReset s).inLen = 0#16 := rfl
@[simp] theorem softReset_outLen (s : State) : (softReset s).outLen = 0#17 := rfl
@[simp] theorem softReset_csum (s : State) : (softReset s).csum = 0#16 := rfl
@[simp] theorem softReset_inBuf (s : State) : (softReset s).inBuf = s.inBuf := rfl
@[simp] theorem softReset_outBuf (s : State) : (softReset s).outBuf = s.outBuf := rfl
@[simp] theorem softReset_response (s : State) : (softReset s).response = s.response := rfl
@[simp] theorem softReset_pending (s : State) : (softReset s).pending = s.pending := rfl
@[simp] theorem softReset_draws (s : State) : (softReset s).draws = s.draws := rfl

end Sys2Proof.Machine
end

