-- ==== Sys2Proof/Laws/Commands.lean ====
section
/-!
SUPPORT. What a command can do, said once: reading the input, delivering a result, the lengths of the framers' outputs, and
one inversion lemma for exec that every rule about all commands starts from.
-/

namespace Sys2Proof.Machine

/-! ## The input -/

theorem inputBytes_eq_some {s : State} {p : List Byte} : inputBytes s = some p ↔ InputIs s p := by
  rw [inputBytes, readRange_eq_some, InputIs]
  constructor
  · rintro ⟨hl, hr⟩
    exact ⟨hl, fun i hi => by simpa using hr i (hl ▸ hi)⟩
  · rintro ⟨hl, hr⟩
    exact ⟨hl, fun i hi => by simpa using hr i (hl ▸ hi)⟩

theorem inputBytes_eq_none {s : State} :
    inputBytes s = none ↔ ∃ k, k < s.inLen.toNat ∧ s.inBuf.read k = none := by
  rw [inputBytes, readRange_eq_none]
  simp

theorem withInput_of_input {s : State} {p : List Byte} (h : InputIs s p)
    (k : List Byte → Host.Outcome State Fault Refusal) : withInput s k = k p := by
  rw [withInput, inputBytes_eq_some.mpr h]

theorem withInput_of_unwritten {s : State} (h : ∃ k, k < s.inLen.toNat ∧ s.inBuf.read k = none)
    (k : List Byte → Host.Outcome State Fault Refusal) : withInput s k = .fault .unwrittenInput := by
  rw [withInput, inputBytes_eq_none.mpr h]

/-- Reading the input either gives it or stops the command. -/
theorem withInput_cases (s : State) (k : List Byte → Host.Outcome State Fault Refusal) :
    (∃ p, InputIs s p ∧ withInput s k = k p) ∨
      ((∃ j, j < s.inLen.toNat ∧ s.inBuf.read j = none) ∧ withInput s k = .fault .unwrittenInput) := by
  cases h : inputBytes s with
  | some p => exact .inl ⟨p, inputBytes_eq_some.mp h, withInput_of_input (inputBytes_eq_some.mp h) k⟩
  | none => exact .inr ⟨inputBytes_eq_none.mp h, withInput_of_unwritten (inputBytes_eq_none.mp h) k⟩

/-- What the host must do first is what makes the input readable (70_reset_and_hazards.md R203). -/
theorem inputWritten_iff {s : State} : InputWritten s ↔ ∃ p, InputIs s p := by
  constructor
  · intro h
    cases hb : inputBytes s with
    | some p => exact ⟨p, inputBytes_eq_some.mp hb⟩
    | none =>
      obtain ⟨k, hk, hn⟩ := inputBytes_eq_none.mp hb
      have := h k hk
      rw [hn] at this
      cases this
  · rintro ⟨p, hl, hr⟩ i hi
    rw [hr i (hl ▸ hi), List.getElem?_eq_getElem (hl ▸ hi)]
    rfl

theorem inputIs_length_le {s : State} {p : List Byte} (h : InputIs s p) : p.length ≤ 65535 := by
  have := s.inLen.isLt
  rw [h.1]
  omega

/-- The input depends on `IN_LEN` and the `IN` bytes below it, and on nothing else. -/
theorem InputIs.congr {s t : State} {p : List Byte} (h : InputIs s p) (hl : t.inLen = s.inLen)
    (hr : ∀ a, a < s.inLen.toNat → t.inBuf.read a = s.inBuf.read a) : InputIs t p :=
  ⟨hl ▸ h.1, fun i hi => by rw [hr i (h.1 ▸ hi), h.2 i hi]⟩

/-! ## The result -/

theorem outLen_toNat_of_le {n : Nat} (h : n ≤ 65549) : (BitVec.ofNat 17 n).toNat = n := by
  rw [BitVec.toNat_ofNat, Nat.mod_eq_of_lt (by omega)]

/-- A delivered result that fits `OUT` is the result. -/
theorem resultIs_deliver {b : List Byte} (h : b.length ≤ 65549) (s : State) : ResultIs (deliver b s) b :=
  ⟨by rw [deliver_outLen, outLen_toNat_of_le h], fun i _ => by rw [deliver_outBuf, read_cellsAt_zero]⟩

/-- Delivering a result that fits is all that a framing command does. -/
theorem framed_deliver {b : List Byte} (h : b.length ≤ 65549) (s : State) : Framed s (deliver b s) b where
  status := rfl
  result := resultIs_deliver h s
  operands := ⟨rfl, rfl, rfl, rfl, rfl, rfl⟩
  input := ⟨rfl, fun _ => rfl⟩
  csum := rfl
  port := ⟨rfl, rfl, rfl⟩

/-! ## The lengths of the framers' outputs -/

@[simp] theorem icmpEcho_length (id seq : Word16) (p : List Byte) : (icmpEcho id seq p).length = 8 + p.length := by
  simp only [icmpEcho, List.length_set, icmpZeroed, List.length_append, be16_length, List.length_cons,
    List.length_nil]

@[simp] theorem ipv4Header_length (src dst : Word32) (tl : Word16) : (ipv4Header src dst tl).length = 20 := by
  simp [ipv4Header, ipv4Zeroed]

@[simp] theorem ethEncode_length (dmac smac : Word48) (p : List Byte) :
    (ethEncode dmac smac p).length = 14 + p.length := by
  simp only [ethEncode, List.length_append, be48_length, be16_length]

/-- The IPv4 framer accepts what fits, and then gives header and payload (42_ipv4.md R115, R118). -/
theorem ipv4Encode_of_le (src dst : Word32) {p : List Byte} (h : p.length ≤ 65515) :
    ipv4Encode src dst p = .ok (ipv4Header src dst (BitVec.ofNat 16 (20 + p.length)) ++ p) :=
  if_neg (by simp only [ipHdrLen, ipMaxTotal]; omega)

theorem ipv4Encode_of_gt (src dst : Word32) {p : List Byte} (h : 65515 < p.length) :
    ipv4Encode src dst p = .error .ipv4Len :=
  if_pos (by simp only [ipHdrLen, ipMaxTotal]; omega)

theorem pingFrame_of_le (dmac smac : Word48) (src dst : Word32) (id seq : Word16) {p : List Byte}
    (h : p.length ≤ 65507) : pingFrame dmac smac src dst id seq p =
      .ok (ethEncode dmac smac
        (ipv4Header src dst (BitVec.ofNat 16 (20 + (icmpEcho id seq p).length)) ++ icmpEcho id seq p)) := by
  rw [pingFrame, ipv4Encode_of_le src dst (by rw [icmpEcho_length]; omega)]

theorem pingFrame_of_gt (dmac smac : Word48) (src dst : Word32) (id seq : Word16) {p : List Byte}
    (h : 65507 < p.length) : pingFrame dmac smac src dst id seq p = .error .ipv4Len := by
  rw [pingFrame, ipv4Encode_of_gt src dst (by rw [icmpEcho_length]; omega)]

/-! ## The framers' outputs, laid out -/

/-- The ICMP message with its checksum in place (41_icmp.md R100). -/
theorem icmpEcho_eq (id seq : Word16) (p : List Byte) : icmpEcho id seq p =
    [0x08#8, 0x00#8] ++ csumBytes (icmpZeroed id seq p) ++ be16 id ++ be16 seq ++ p := rfl

/-- The IPv4 header with its checksum in place (42_ipv4.md R115). -/
theorem ipv4Header_eq (src dst : Word32) (tl : Word16) : ipv4Header src dst tl =
    [0x45#8, 0x00#8] ++ be16 tl ++ [0x00#8, 0x00#8, 0x00#8, 0x00#8, 0x40#8, 0x01#8] ++
      csumBytes (ipv4Zeroed src dst tl) ++ be32 src ++ be32 dst := rfl

/-! ## The meanings, each in its cases -/

theorem execIpv4_of_le {s : State} {p : List Byte} (h : InputIs s p) (hn : s.inLen.toNat ≤ 65515) :
    execIpv4 s = .next (deliver (ipv4Header s.ipSrc s.ipDst (BitVec.ofNat 16 (20 + p.length)) ++ p) s) := by
  rw [execIpv4, if_neg (by omega), withInput_of_input h, ipv4Encode_of_le _ _ (by rw [h.1]; exact hn)]
  rfl

theorem execIpv4_of_gt {s : State} (hn : 65515 < s.inLen.toNat) : execIpv4 s = .next (raise .ipv4Len s) := by
  rw [execIpv4, if_pos (by omega)]

theorem execPing_of_le {s : State} {p : List Byte} (h : InputIs s p) (hn : s.inLen.toNat ≤ 65507) :
    execPing s = .next (deliver (ethEncode s.ethDst s.ethSrc
      (ipv4Header s.ipSrc s.ipDst (BitVec.ofNat 16 (20 + (icmpEcho s.icmpId s.icmpSeq p).length)) ++
        icmpEcho s.icmpId s.icmpSeq p)) s) := by
  rw [execPing, if_neg (by omega), withInput_of_input h, pingFrame_of_le _ _ _ _ _ _ (by rw [h.1]; exact hn)]
  rfl

theorem execPing_of_gt {s : State} (hn : 65507 < s.inLen.toNat) : execPing s = .next (raise .ipv4Len s) := by
  rw [execPing, if_pos (by omega)]

theorem execXfer_of_le {s : State} (hn : s.outLen.toNat ≤ 65535) :
    execXfer s = .next (complete (copyResult s)) := by
  rw [execXfer, if_neg (by omega)]

theorem execXfer_of_gt {s : State} (hn : 65535 < s.outLen.toNat) : execXfer s = .next (raise .xferLen s) := by
  rw [execXfer, if_pos hn]

/-- The bytes a command that delivers gives for the input `p`, as the state stands. -/
def resultOf (i : Instr) (s : State) (p : List Byte) : List Byte :=
  match i with
  | .srst => []
  | .csum => csumBytes p
  | .icmp => icmpEcho s.icmpId s.icmpSeq p
  | .ipv4 => ipv4Header s.ipSrc s.ipDst (BitVec.ofNat 16 (20 + p.length)) ++ p
  | .eth => ethEncode s.ethDst s.ethSrc p
  | .xfer => []
  | .ping => ethEncode s.ethDst s.ethSrc
      (ipv4Header s.ipSrc s.ipDst (BitVec.ofNat 16 (20 + (icmpEcho s.icmpId s.icmpSeq p).length)) ++
        icmpEcho s.icmpId s.icmpSeq p)

/-- What `CSUM` holds after a command that delivers. -/
def csumAfter (i : Instr) (s : State) (p : List Byte) : Word16 := if i = .csum then csum16 p else s.csum

/-- A command that reads its input, and whose input has been written, delivers its result. -/
theorem exec_delivers {i : Instr} {s : State} {p : List Byte} (hi : ReadsInput i s) (h : InputIs s p) :
    exec i s = .next (deliver (resultOf i s p) { s with csum := csumAfter i s p }) ∧
      (resultOf i s p).length ≤ 65549 := by
  have hp := inputIs_length_le h
  have hl := h.1
  cases i with
  | srst => exact hi.elim
  | csum => exact ⟨withInput_of_input h _, by simp [resultOf]⟩
  | icmp => exact ⟨withInput_of_input h _, by simp only [resultOf, icmpEcho_length]; omega⟩
  | ipv4 =>
    have : s.inLen.toNat ≤ 65515 := hi
    exact ⟨execIpv4_of_le h hi, by simp only [resultOf, List.length_append, ipv4Header_length]; omega⟩
  | eth => exact ⟨withInput_of_input h _, by simp only [resultOf, ethEncode_length]; omega⟩
  | xfer => exact hi.elim
  | ping =>
    have : s.inLen.toNat ≤ 65507 := hi
    exact ⟨execPing_of_le h hi, by
      simp only [resultOf, ethEncode_length, List.length_append, ipv4Header_length, icmpEcho_length]; omega⟩

/-- A command that reads its input faults when a byte of it has not been written (10_state.md R34). -/
theorem exec_faults {i : Instr} {s : State} (hi : ReadsInput i s)
    (h : ∃ k, k < s.inLen.toNat ∧ s.inBuf.read k = none) : exec i s = .fault .unwrittenInput := by
  cases i with
  | srst => exact hi.elim
  | csum => exact withInput_of_unwritten h _
  | icmp => exact withInput_of_unwritten h _
  | ipv4 =>
    have : s.inLen.toNat ≤ 65515 := hi
    show execIpv4 s = _
    rw [execIpv4, if_neg (by omega), withInput_of_unwritten h]
  | eth => exact withInput_of_unwritten h _
  | xfer => exact hi.elim
  | ping =>
    have : s.inLen.toNat ≤ 65507 := hi
    show execPing s = _
    rw [execPing, if_neg (by omega), withInput_of_unwritten h]

/-- Which error a command raises, if it raises one (60_exceptions.md R170). -/
def RaisesError (i : Instr) (e : CommandError) (s : State) : Prop :=
  (i = .ipv4 ∧ e = .ipv4Len ∧ 65515 < s.inLen.toNat) ∨ (i = .ping ∧ e = .ipv4Len ∧ 65507 < s.inLen.toNat) ∨
    (i = .xfer ∧ e = .xferLen ∧ 65535 < s.outLen.toNat)

theorem exec_raises {i : Instr} {e : CommandError} {s : State} (h : RaisesError i e s) :
    exec i s = .next (raise e s) := by
  rcases h with ⟨rfl, rfl, h⟩ | ⟨rfl, rfl, h⟩ | ⟨rfl, rfl, h⟩
  · exact execIpv4_of_gt h
  · exact execPing_of_gt h
  · exact execXfer_of_gt h

/-- Everything a command can do, guards included: deliver, fault, raise, copy or reset. -/
theorem exec_cases (i : Instr) (s : State) :
    (ReadsInput i s ∧ ∃ p, InputIs s p ∧ (resultOf i s p).length ≤ 65549 ∧
      exec i s = .next (deliver (resultOf i s p) { s with csum := csumAfter i s p })) ∨
    (ReadsInput i s ∧ (∃ k, k < s.inLen.toNat ∧ s.inBuf.read k = none) ∧ exec i s = .fault .unwrittenInput) ∨
    (∃ e, RaisesError i e s ∧ exec i s = .next (raise e s)) ∨
    (i = .xfer ∧ s.outLen.toNat ≤ 65535 ∧ exec i s = .next (complete (copyResult s))) ∨
    (i = .srst ∧ exec i s = .next (softReset s)) := by
  by_cases hi : ReadsInput i s
  · cases hb : inputBytes s with
    | some p =>
      have h := inputBytes_eq_some.mp hb
      exact .inl ⟨hi, p, h, (exec_delivers hi h).2, (exec_delivers hi h).1⟩
    | none =>
      have h := inputBytes_eq_none.mp hb
      exact .inr (.inl ⟨hi, h, exec_faults hi h⟩)
  · have raises : ∀ e, RaisesError i e s → ∃ e, RaisesError i e s ∧ exec i s = .next (raise e s) :=
      fun e h => ⟨e, h, exec_raises h⟩
    refine .inr (.inr ?_)
    cases i with
    | srst => exact .inr (.inr ⟨rfl, rfl⟩)
    | csum => exact (hi trivial).elim
    | icmp => exact (hi trivial).elim
    | ipv4 => exact .inl (raises _ (.inl ⟨rfl, rfl, Nat.lt_of_not_le hi⟩))
    | eth => exact (hi trivial).elim
    | xfer =>
      by_cases hn : s.outLen.toNat ≤ 65535
      · exact .inr (.inl ⟨rfl, hn, execXfer_of_le hn⟩)
      · exact .inl (raises _ (.inr (.inr ⟨rfl, rfl, Nat.lt_of_not_le hn⟩)))
    | ping => exact .inl (raises _ (.inr (.inl ⟨rfl, rfl, Nat.lt_of_not_le hi⟩)))

/-- The same, for a command known to have answered a next state. -/
theorem exec_next_cases {i : Instr} {s t : State} (h : exec i s = .next t) :
    (ReadsInput i s ∧ ∃ p, InputIs s p ∧ (resultOf i s p).length ≤ 65549 ∧
      t = deliver (resultOf i s p) { s with csum := csumAfter i s p }) ∨
    (∃ e, RaisesError i e s ∧ t = raise e s) ∨
    (i = .xfer ∧ s.outLen.toNat ≤ 65535 ∧ t = complete (copyResult s)) ∨
    (i = .srst ∧ t = softReset s) := by
  rcases exec_cases i s with ⟨hi, p, hp, hl, e⟩ | ⟨-, -, e⟩ | ⟨x, hx, e⟩ | ⟨hi, hn, e⟩ | ⟨hi, e⟩ <;>
    rw [e] at h <;> cases h
  · exact .inl ⟨hi, p, hp, hl, rfl⟩
  · exact .inr (.inl ⟨x, hx, rfl⟩)
  · exact .inr (.inr (.inl ⟨hi, hn, rfl⟩))
  · exact .inr (.inr (.inr ⟨hi, rfl⟩))

/-- No command is refused. -/
theorem exec_not_refused (i : Instr) (s : State) (r : Refusal) : exec i s ≠ .refused r := by
  intro h
  rcases exec_cases i s with ⟨-, p, -, -, e⟩ | ⟨-, -, e⟩ | ⟨x, -, e⟩ | ⟨-, -, e⟩ | ⟨-, e⟩ <;>
    rw [e] at h <;> cases h

/-! ## The invariant -/

/-- The invariant is about `STATUS`, `OUT_LEN` and the two buffers, and about nothing else. -/
theorem StateInv.congr {s t : State} (h : StateInv s) (hs : t.status = s.status) (hl : t.outLen = s.outLen)
    (hi : t.inBuf = s.inBuf) (ho : t.outBuf = s.outBuf) : StateInv t where
  inWf := hi ▸ h.inWf
  outWf := ho ▸ h.outWf
  outLenLe := hl ▸ h.outLenLe
  outDefined := by rw [hl, ho]; exact h.outDefined
  notBoth := hs ▸ h.notBoth
  noCode := hs ▸ h.noCode
  errCode := by rw [hs, hl]; exact h.errCode

end Sys2Proof.Machine
end

