-- ==== Sys2Proof/Laws/Port.lean ====
section
/-!
SUPPORT. What one step can do, said once: reset, a `CMD` write, a register or `IN` byte write, or an answer that changes
the port alone. Every rule about all steps starts from step_facing_cases.
-/

namespace Sys2Proof.Machine

/-- With the host about to drive `p`, a step is the edge of `p`. -/
theorem step_facing (s : State) (p : PortInput) (rest : List PortInput) :
    step (s.facing p rest) = portEdge p { s with pending := rest } := rfl

/-- At an edge at which the host presents nothing, a step waits. -/
theorem step_idle {p : PortInput} (hr : p.rst = false) (hv : p.reqValid = false) (s : State) (rest : List PortInput) :
    step (s.facing p rest) = .next { s with pending := rest, response := .noTransaction } := by
  simp [step_facing, portEdge, hr, hv]

/-- With nothing to come, a step waits. -/
theorem step_waiting {s : State} (h : s.pending = []) : step s = .next { s with response := .noTransaction } := by
  rw [step, nextEdge, h]

/-- A state with something to come is the state facing it. -/
theorem facing_of_pending {s : State} {p : PortInput} {rest : List PortInput} (h : s.pending = p :: rest) :
    s = ({ s with pending := rest } : State).facing p rest := by
  cases s; cases h; rfl

theorem regOfNumber_numberOfReg (r : RegName) : regOfNumber (numberOfReg r) = some r := by cases r <;> rfl

/-- A number from 0xB up is reserved (10_state.md R26). -/
theorem regOfNumber_reserved {n : Word17} (h : 0xB ≤ n.toNat) : regOfNumber n = none := by
  unfold regOfNumber
  split <;> first | rfl | omega

/-- The register number 0, and no other, is `CMD`. -/
theorem regOfNumber_eq_cmd {n : Word17} : regOfNumber n = some .cmd ↔ n = 0#17 := by
  constructor
  · intro h
    have hn : n.toNat = 0 := by
      unfold regOfNumber at h
      split at h <;> first | assumption | cases h
    exact BitVec.eq_of_toNat_eq (by simpa using hn)
  · rintro rfl; rfl

/-- The operand registers have the numbers 5 to 10 (10_state.md R10). -/
theorem number_of_operand {n : Word17} {r : RegName} (h : regOfNumber n = some r)
    (hr : r = .icmpId ∨ r = .icmpSeq ∨ r = .ipSrc ∨ r = .ipDst ∨ r = .ethDst ∨ r = .ethSrc) :
    5 ≤ n.toNat ∧ n.toNat ≤ 10 := by
  unfold regOfNumber at h
  split at h <;> first
    | omega
    | (cases h; simp at hr)
    | cases h

/-- A register write changes no buffer, no read-only register and nothing of the port. -/
theorem writeReg_frame (r : RegName) (v : Word48) (s : State) :
    (writeReg r v s).status = s.status ∧ (writeReg r v s).outLen = s.outLen ∧ (writeReg r v s).csum = s.csum ∧
      (writeReg r v s).inBuf = s.inBuf ∧ (writeReg r v s).outBuf = s.outBuf ∧
      (writeReg r v s).response = s.response ∧ (writeReg r v s).pending = s.pending ∧
      (writeReg r v s).draws = s.draws := by
  cases r <;> exact ⟨rfl, rfl, rfl, rfl, rfl, rfl, rfl, rfl⟩

/-- Reading `IN` changes the port's answer and the counter of draws alone. -/
theorem readIn_frame (i : Word17) (s : State) : ∃ d k, readIn i s = { s with response := .readDone d, draws := k } := by
  unfold readIn
  split
  · split
    · exact ⟨_, s.draws, rfl⟩
    · exact ⟨_, _, rfl⟩
  · exact ⟨_, s.draws, rfl⟩

/-- Reading `OUT` changes the port's answer and the counter of draws alone. -/
theorem readOut_frame (i : Word17) (s : State) :
    ∃ d k, readOut i s = { s with response := .readDone d, draws := k } := by
  unfold readOut
  split
  · split
    · exact ⟨_, s.draws, rfl⟩
    · exact ⟨_, _, rfl⟩
  · exact ⟨_, _, rfl⟩

/-- A transaction that is not a `CMD` write always completes, and either answers, or writes one register, or stores one
`IN` byte. -/
theorem transact_cases (t : Transaction) (s : State) :
    (∃ v, t = .regWrite 0#17 v ∧ transact t s = runCommand (v.setWidth 8) { s with response := .writeDone }) ∨
    (∃ r k, transact t s = .next { s with response := r, draws := k }) ∨
    (∃ n v r, t = .regWrite n v ∧ r ≠ .cmd ∧ regOfNumber n = some r ∧
      transact t s = .next (writeReg r v { s with response := .writeDone })) ∨
    (∃ i v, t = .inWrite i v ∧ i.toNat ≤ 65535 ∧
      transact t s =
        .next { s with response := .writeDone, inBuf := s.inBuf.store i.toNat [(v.setWidth 8 : Byte)] }) := by
  cases t with
  | regRead n => exact .inr (.inl ⟨_, s.draws, rfl⟩)
  | regWrite n v =>
    cases hn : regOfNumber n with
    | none =>
      refine .inr (.inl ⟨.writeDone, s.draws, ?_⟩)
      show regWrite n v _ = _
      rw [regWrite, hn]
    | some r =>
      by_cases hr : r = .cmd
      · subst hr
        have h0 := regOfNumber_eq_cmd.mp hn
        subst h0
        exact .inl ⟨v, rfl, rfl⟩
      · refine .inr (.inr (.inl ⟨n, v, r, rfl, hr, hn, ?_⟩))
        show regWrite n v _ = _
        rw [regWrite, hn]
        cases r <;> first | rfl | exact absurd rfl hr
  | inRead i =>
    obtain ⟨d, k, e⟩ := readIn_frame i s
    exact .inr (.inl ⟨_, k, congrArg Host.Outcome.next e⟩)
  | inWrite i v =>
    by_cases hi : i.toNat ≤ 65535
    · refine .inr (.inr (.inr ⟨i, v, rfl, hi, ?_⟩))
      show Host.Outcome.next (writeIn i v _) = _
      rw [writeIn, if_pos hi]
    · refine .inr (.inl ⟨.writeDone, s.draws, ?_⟩)
      show Host.Outcome.next (writeIn i v _) = _
      rw [writeIn, if_neg hi]
  | outRead i =>
    obtain ⟨d, k, e⟩ := readOut_frame i s
    exact .inr (.inl ⟨_, k, congrArg Host.Outcome.next e⟩)
  | outWrite i v => exact .inr (.inl ⟨_, s.draws, rfl⟩)
  | reservedRead => exact .inr (.inl ⟨_, s.draws, rfl⟩)
  | reservedWrite => exact .inr (.inl ⟨_, s.draws, rfl⟩)

/-- A request that is a register write: its fields. -/
theorem request_of_regWrite {r : Request} {n : Word17} {v : Word48} (h : transactionOf r = .regWrite n v) :
    r.write = true ∧ r.space = 0#2 ∧ r.addr = n ∧ r.wdata = v := by
  unfold transactionOf at h
  split at h <;> first
    | (rename_i hs hw; cases h; exact ⟨hw, hs, rfl, rfl⟩)
    | cases h

/-- Whether the host writes `CMD`, in the fields of the port. -/
theorem writesRegister_iff {p : PortInput} {n : Word17} : p.writesRegister n = true ↔
    p.rst = false ∧ p.reqValid = true ∧ p.req.write = true ∧ p.req.space = 0#2 ∧ p.req.addr = n := by
  simp [PortInput.writesRegister, and_assoc]

theorem writesCmd_iff {p : PortInput} : p.writesCmd = true ↔
    p.rst = false ∧ p.reqValid = true ∧ p.req.write = true ∧ p.req.space = 0#2 ∧ p.req.addr = 0#17 :=
  writesRegister_iff

theorem issues_iff {p : PortInput} {i : Instr} :
    p.issues i = true ↔ p.writesCmd = true ∧ (p.req.wdata.setWidth 8 : Byte) = encode i := by
  simp [PortInput.issues]

/-- Everything a step can do when the host is about to drive `p`. -/
theorem step_facing_cases (s : State) (p : PortInput) (rest : List PortInput) :
    (p.rst = true ∧ step (s.facing p rest) = .next (hardReset { s with pending := rest })) ∨
    (p.writesCmd = true ∧ step (s.facing p rest) =
      runCommand (p.req.wdata.setWidth 8) { s with pending := rest, response := .writeDone }) ∨
    (p.rst = false ∧ p.writesCmd = false ∧ ∃ r k, step (s.facing p rest) =
      .next { s with pending := rest, response := r, draws := k }) ∨
    (p.rst = false ∧ p.writesCmd = false ∧ p.reqValid = true ∧ p.req.write = true ∧ p.req.space = 0#2 ∧
      ∃ r, r ≠ .cmd ∧ regOfNumber p.req.addr = some r ∧ step (s.facing p rest) =
        .next (writeReg r p.req.wdata { s with pending := rest, response := .writeDone })) ∨
    (p.rst = false ∧ p.writesCmd = false ∧ ∃ i b, i ≤ 65535 ∧ step (s.facing p rest) =
      .next { s with pending := rest, response := .writeDone, inBuf := s.inBuf.store i [b] }) := by
  rw [step_facing, portEdge]
  by_cases hr : p.rst = true
  · exact .inl ⟨hr, if_pos hr⟩
  · have hr' : p.rst = false := by simpa using hr
    rw [if_neg hr]
    by_cases hv : p.reqValid = true
    · rw [if_pos hv]
      rcases transact_cases (transactionOf p.req) { s with pending := rest } with
        ⟨v, ht, e⟩ | ⟨r, k, e⟩ | ⟨n, v, r, ht, hc, hn, e⟩ | ⟨i, v, ht, hi, e⟩
      · obtain ⟨hw, hs, ha, hd⟩ := request_of_regWrite ht
        refine .inr (.inl ⟨writesCmd_iff.mpr ⟨hr', hv, hw, hs, ha⟩, ?_⟩)
        rw [e, hd]
      · by_cases hc : p.writesCmd = true
        · obtain ⟨-, -, hw, hs, ha⟩ := writesCmd_iff.mp hc
          refine .inr (.inl ⟨hc, ?_⟩)
          have ht : transactionOf p.req = .regWrite 0#17 p.req.wdata := by
            unfold transactionOf; rw [hw, hs, ha]; rfl
          rw [ht]; rfl
        · exact .inr (.inr (.inl ⟨hr', by simpa using hc, r, k, e⟩))
      · obtain ⟨hw, hs, ha, hd⟩ := request_of_regWrite ht
        subst ha; subst hd
        refine .inr (.inr (.inr (.inl ⟨hr', ?_, hv, hw, hs, r, hc, hn, e⟩)))
        rw [Bool.eq_false_iff]
        intro h
        obtain ⟨-, -, -, -, h0⟩ := writesCmd_iff.mp h
        rw [h0] at hn
        exact hc (Option.some.inj hn).symm
      · refine .inr (.inr (.inr (.inr ⟨hr', ?_, i.toNat, v.setWidth 8, hi, e⟩)))
        rw [Bool.eq_false_iff]
        intro h
        obtain ⟨-, -, hw, hs, ha⟩ := writesCmd_iff.mp h
        unfold transactionOf at ht
        rw [hw, hs] at ht
        cases ht
    · rw [if_neg hv]
      refine .inr (.inr (.inl ⟨hr', ?_, .noTransaction, s.draws, rfl⟩))
      rw [Bool.eq_false_iff]
      exact fun h => hv (writesCmd_iff.mp h).2.1

/-- Running a command byte: the meaning of the command it names, or the error. -/
theorem runCommand_cases (c : Byte) (s : State) :
    (∃ i, decode c = .ok i ∧ runCommand c s = exec i (commandStart s)) ∨
    (∃ e, decode c = .error e ∧ runCommand c s = .next (raise .illegalCmd (commandStart s))) := by
  cases h : decode c with
  | ok i => exact .inl ⟨i, rfl, by rw [runCommand, h]⟩
  | error e => exact .inr ⟨e, rfl, by rw [runCommand, h]⟩

/-- Decoding undoes encoding. -/
@[simp] theorem decode_encode (i : Instr) : decode (encode i) = .ok i := by cases i <;> rfl

/-- A command issued by its byte runs its meaning from command start. -/
@[simp] theorem runCommand_encode (i : Instr) (s : State) : runCommand (encode i) s = exec i (commandStart s) := by
  rw [runCommand, decode_encode]

/-! ## Buffer accesses, each in its cases -/

theorem readIn_written {i : Word17} {s : State} {b : Byte} (hi : i.toNat ≤ 65535) (h : s.inBuf.read i.toNat = some b) :
    readIn i s = answer (b.setWidth 48) s := by
  rw [readIn, if_pos hi, h]

theorem readIn_unwritten {i : Word17} {s : State} (hi : i.toNat ≤ 65535) (h : s.inBuf.read i.toNat = none) :
    readIn i s = answerFreeByte s := by
  rw [readIn, if_pos hi, h]

theorem readIn_outside {i : Word17} {s : State} (hi : 65535 < i.toNat) : readIn i s = answer 0#48 s :=
  if_neg (by omega)

theorem writeIn_inside {i : Word17} (hi : i.toNat ≤ 65535) (v : Word48) (s : State) :
    writeIn i v s = { s with inBuf := s.inBuf.store i.toNat [v.setWidth 8] } := if_pos hi

theorem writeIn_outside {i : Word17} (hi : 65535 < i.toNat) (v : Word48) (s : State) : writeIn i v s = s :=
  if_neg (by omega)

theorem readOut_result {i : Word17} {s : State} {b : Byte} (hi : i.toNat < s.outLen.toNat)
    (h : s.outBuf.read i.toNat = some b) : readOut i s = answer (b.setWidth 48) s := by
  rw [readOut, if_pos hi, h]

theorem readOut_beyond {i : Word17} {s : State} (hi : s.outLen.toNat ≤ i.toNat) : readOut i s = answerFreeWord s :=
  if_neg (by omega)

/-! ## A step, transaction by transaction -/

theorem step_regRead (s : State) (rest : List PortInput) (n : Word17) (w : Word48) :
    step (s.facing (regReadInput n w) rest) =
      .next { s with pending := rest, response := .readDone (readRegNumber n s) } := rfl

theorem step_regWrite (s : State) (rest : List PortInput) (n : Word17) (v : Word48) :
    step (s.facing (regWriteInput n v) rest) = regWrite n v { s with pending := rest, response := .writeDone } := rfl

theorem step_cmdWrite (s : State) (rest : List PortInput) (v : Word48) :
    step (s.facing (regWriteInput 0#17 v) rest) =
      runCommand (v.setWidth 8) { s with pending := rest, response := .writeDone } := rfl

theorem step_inWrite (s : State) (rest : List PortInput) (i : Word17) (v : Word48) :
    step (s.facing (inWriteInput i v) rest) =
      .next (writeIn i v { s with pending := rest, response := .writeDone }) := rfl

theorem step_inRead (s : State) (rest : List PortInput) (i : Word17) (w : Word48) :
    step (s.facing (inReadInput i w) rest) = .next (readIn i { s with pending := rest }) := rfl

theorem step_outWrite (s : State) (rest : List PortInput) (i : Word17) (v : Word48) :
    step (s.facing (outWriteInput i v) rest) = .next { s with pending := rest, response := .writeDone } := rfl

theorem step_outRead (s : State) (rest : List PortInput) (i : Word17) (w : Word48) :
    step (s.facing (outReadInput i w) rest) = .next (readOut i { s with pending := rest }) := rfl

/-! ## Several steps -/

/-- A run goes on from the state its first step answers. -/
theorem run_succ_of_next {s t : State} (h : step s = .next t) (k : Nat) :
    Sys2Proof.core.run (k + 1) s = Sys2Proof.core.run k t := by
  have e : Sys2Proof.core.step s = .next t := h
  simp only [Host.Core.run, e]

/-- A run of at least one step that answers a next state took a first step. -/
theorem first_step_of_run {k : Nat} {s t : State} (h : Sys2Proof.core.run (k + 1) s = .next t) :
    ∃ s', step s = .next s' := by
  have e : Sys2Proof.core.step s = step s := rfl
  cases hs : step s with
  | next s' => exact ⟨s', rfl⟩
  | fault r => simp only [Host.Core.run, e, hs] at h; cases h
  | refused r => simp only [Host.Core.run, e, hs] at h; cases h

/-- Two runs one after the other are one run. -/
theorem run_add_of_next {k : Nat} {s t : State} (h : Sys2Proof.core.run k s = .next t) (l : Nat) :
    Sys2Proof.core.run (k + l) s = Sys2Proof.core.run l t := by
  induction k generalizing s with
  | zero => cases h; rw [Nat.zero_add]
  | succ k ih =>
    obtain ⟨s', hs⟩ := first_step_of_run h
    rw [run_succ_of_next hs] at h
    rw [Nat.add_right_comm, run_succ_of_next hs, ih h]

end Sys2Proof.Machine
end

