-- ==== Sys2Proof/Laws/PerInstr.lean ====
section
/-!
SUPPORT. Statements made per command: one lemma per constructor of Instr. The family Encoding says that a command's byte is
well-formed, decodes to the command, and is read back from a table word of eight bits (30_encoding.md R60, R62).
-/

namespace Sys2Proof.Laws.Encoding

/-- The byte of a command is well-formed and names that command, as a byte and as a table word. -/
def Statement (i : Instr) : Prop :=
  CommandByte.wellFormed (encode i) = true ∧ decode (encode i) = .ok i ∧
    decodeTableWord 8 (encode i).toNat = some i

theorem srst : Statement .srst := ⟨rfl, rfl, rfl⟩
theorem csum : Statement .csum := ⟨rfl, rfl, rfl⟩
theorem icmp : Statement .icmp := ⟨rfl, rfl, rfl⟩
theorem ipv4 : Statement .ipv4 := ⟨rfl, rfl, rfl⟩
theorem eth : Statement .eth := ⟨rfl, rfl, rfl⟩
theorem xfer : Statement .xfer := ⟨rfl, rfl, rfl⟩
theorem ping : Statement .ping := ⟨rfl, rfl, rfl⟩

end Sys2Proof.Laws.Encoding
end

