-- ==== Sys2Proof/Tests/Slice0.lean ====
section
/-!
SUPPORT. The model's own tests. Expected values are the spec's: the bytes of 30_encoding.md R62 and the vectors V-… of
95_test_vectors.md, which the spec derives by hand from its rules. Then the witnesses: for each statement with
hypotheses, concrete states and operands that meet them, at the boundaries of their ranges.
-/

namespace Sys2Proof.Tests

open Sys2Proof Sys2Proof.Machine

/-! ## Decoding: every command's byte, written out from the column "bits 7..0" of R62 -/

theorem test_decode_srst : decode 0b00000000#8 = .ok .srst := by decide
theorem test_decode_csum : decode 0b00000001#8 = .ok .csum := by decide
theorem test_decode_icmp : decode 0b00000010#8 = .ok .icmp := by decide
theorem test_decode_ipv4 : decode 0b00000011#8 = .ok .ipv4 := by decide
theorem test_decode_eth : decode 0b00000100#8 = .ok .eth := by decide
theorem test_decode_xfer : decode 0b00000101#8 = .ok .xfer := by decide
theorem test_decode_ping : decode 0b00000110#8 = .ok .ping := by decide

/-- V-X1: `OP` = 7 is reserved. -/
theorem test_decode_rejects_07 : decode 0x07#8 = .error .opReserved := by decide

/-- V-X2: bit 3 is part of `ZERO`, so 0x0A is not `ICMP`. -/
theorem test_decode_rejects_0A : decode 0x0A#8 = .error .zeroFieldSet := by decide

/-- V-X3: bit 7 is part of `ZERO`. -/
theorem test_decode_rejects_82 : decode 0x82#8 = .error .zeroFieldSet := by decide

/-! ## Well-formedness: an ill-formed byte for each check, which the check refuses -/

theorem test_zero_check_refuses : CommandByte.zeroIsClear 0x0A#8 = false ∧ CommandByte.wellFormed 0x0A#8 = false := by
  decide
theorem test_op_check_refuses : CommandByte.opIsAssigned 0x07#8 = false ∧ CommandByte.wellFormed 0x07#8 = false := by
  decide
theorem test_last_command_is_well_formed : CommandByte.wellFormed 0x06#8 = true := by decide

/-! ## Small states -/

/-- The reset state with `p` loaded as the input. -/
def loaded (p : List Byte) : State :=
  { State.reset with inBuf := Memory.cellsAt 0 p, inLen := BitVec.ofNat 16 p.length }

/-- The reset state with `IN_LEN` set and no `IN` byte written. -/
def unwritten (n : Word16) : State := { State.reset with inLen := n }

/-- The reset state with `b` delivered as a result. -/
def resulted (b : List Byte) : State := deliver b State.reset

/-- Whether an outcome is a next state of which `f` holds. -/
def nextSatisfies (o : Host.Outcome State Fault Refusal) (f : State → Bool) : Bool :=
  match o with
  | .next t => f t
  | .fault _ => false
  | .refused _ => false

/-- Whether an outcome is the fault on an unwritten input byte. -/
def faults (o : Host.Outcome State Fault Refusal) : Bool :=
  match o with
  | .next _ => false
  | .fault .unwrittenInput => true
  | .refused _ => false

/-! ## The commands -/

/-- V-C11: the wide sum 0x1FFFF needs two fold steps. -/
theorem test_csum_folds_twice :
    nextSatisfies (exec .csum (loaded [0xFF#8, 0xFF#8, 0xFF#8, 0xFF#8, 0x00#8, 0x01#8])) (fun t =>
      t.csum == 0xFFFE#16 && t.outLen == 2#17 && t.outBuf == [(0, 0xFF#8), (1, 0xFE#8)] &&
        statusByte t.status == 0x01#8) = true := by decide

/-- V-C20: the pad is the constant 0, not the next `IN` byte. -/
theorem test_csum_pads_with_zero :
    nextSatisfies (exec .csum { loaded [0x01#8, 0x02#8, 0x03#8, 0xEE#8] with inLen := 3#16 }) (fun t =>
      t.csum == 0xFBFD#16) = true := by decide

/-- V-I4: an odd payload; the output has no pad byte. -/
theorem test_icmp_odd_payload :
    nextSatisfies (exec .icmp { loaded [0xAB#8] with icmpId := 0x1234#16, icmpSeq := 0x0001#16 }) (fun t =>
      t.outLen == 9#17 && t.outBuf == Memory.cellsAt 0
        [0x08#8, 0x00#8, 0x3A#8, 0xCA#8, 0x12#8, 0x34#8, 0x00#8, 0x01#8, 0xAB#8]) = true := by decide

/-- V-I5: a computed checksum of 0x0000 is written as it is. -/
theorem test_icmp_zero_checksum :
    nextSatisfies (exec .icmp { State.reset with icmpId := 0xF7FF#16 }) (fun t =>
      t.outBuf == Memory.cellsAt 0 [0x08#8, 0x00#8, 0x00#8, 0x00#8, 0xF7#8, 0xFF#8, 0x00#8, 0x00#8]) = true := by
  decide

/-- V-P4: the payload does not enter the header checksum; one carry. -/
theorem test_ipv4_odd_payload :
    nextSatisfies (exec .ipv4
      { loaded [0xDE#8, 0xAD#8, 0xBE#8] with ipSrc := 0xC0A8010A#32, ipDst := 0x08080808#32 }) (fun t =>
      t.outLen == 23#17 && t.outBuf == Memory.cellsAt 0
        [0x45#8, 0x00#8, 0x00#8, 0x17#8, 0x00#8, 0x00#8, 0x00#8, 0x00#8, 0x40#8, 0x01#8, 0xA9#8, 0x24#8, 0xC0#8, 0xA8#8,
          0x01#8, 0x0A#8, 0x08#8, 0x08#8, 0x08#8, 0x08#8, 0xDE#8, 0xAD#8, 0xBE#8]) = true := by decide

/-- V-P6 with V-X20: the smallest rejected payload, no `IN` byte of it written. -/
theorem test_ipv4_rejects_65516 :
    nextSatisfies (exec .ipv4 (unwritten 65516#16)) (fun t =>
      statusByte t.status == 0x22#8 && t.outLen == 0#17 && t.inLen == 65516#16) = true := by decide

/-- V-E2: byte order of a 48-bit register, destination first. -/
theorem test_eth_byte_order :
    nextSatisfies (exec .eth
      { loaded [0x99#8] with ethDst := 0x010203040506#48, ethSrc := 0x0708090A0B0C#48 }) (fun t =>
      t.outLen == 15#17 && t.outBuf == Memory.cellsAt 0
        [0x01#8, 0x02#8, 0x03#8, 0x04#8, 0x05#8, 0x06#8, 0x07#8, 0x08#8, 0x09#8, 0x0A#8, 0x0B#8, 0x0C#8, 0x08#8, 0x00#8,
          0x99#8]) = true := by decide

/-- V-E1: an empty payload is 14 bytes, with no padding. -/
theorem test_eth_empty_payload :
    nextSatisfies (exec .eth { State.reset with ethDst := 0xFFFFFFFFFFFF#48, ethSrc := 0xAABBCCDDEEFF#48 }) (fun t =>
      t.outLen == 14#17 && t.outBuf == Memory.cellsAt 0
        [0xFF#8, 0xFF#8, 0xFF#8, 0xFF#8, 0xFF#8, 0xFF#8, 0xAA#8, 0xBB#8, 0xCC#8, 0xDD#8, 0xEE#8, 0xFF#8, 0x08#8,
          0x00#8]) = true := by decide

/-- V-G6, shortened to a two-byte result over a longer input: bytes beyond the copy stay. -/
theorem test_xfer_copies_result :
    nextSatisfies (exec .xfer { resulted [0x22#8, 0x0D#8] with
      inBuf := [(0, 0xAA#8), (1, 0xBB#8), (2, 0xCC#8)], inLen := 3#16 }) (fun t =>
      t.inLen == 2#16 && t.inBuf == [(0, 0x22#8), (1, 0x0D#8), (2, 0xCC#8)] && t.outLen == 2#17 &&
        statusByte t.status == 0x01#8) = true := by decide

/-- V-G8: the longest `ETH` result does not fit `IN_LEN`. -/
theorem test_xfer_rejects_65549 :
    nextSatisfies (exec .xfer { State.reset with outLen := 65549#17, inLen := 65535#16 }) (fun t =>
      statusByte t.status == 0x32#8 && t.outLen == 0#17 && t.inLen == 65535#16) = true := by decide

/-- V-G10: soft reset clears the registers and keeps the buffers. -/
theorem test_srst_keeps_buffers :
    nextSatisfies (exec .srst { loaded [0x01#8, 0x02#8] with icmpId := 0x0045#16, outLen := 46#17 }) (fun t =>
      t == { State.reset with inBuf := [(0, 0x01#8), (1, 0x02#8)] }) = true := by decide

/-- V-G3: an odd payload through all layers. -/
theorem test_ping_odd_payload :
    nextSatisfies (exec .ping
      { loaded [0x61#8, 0x62#8, 0x63#8] with
        ethDst := 0xFFFFFFFFFFFF#48, ethSrc := 0xAABBCCDDEEFF#48, ipSrc := 0xC0A8010A#32, ipDst := 0x08080808#32
        icmpId := 0x1234#16, icmpSeq := 0x0001#16 }) (fun t =>
      t.outLen == 45#17 && t.outBuf == Memory.cellsAt 0
        [0xFF#8, 0xFF#8, 0xFF#8, 0xFF#8, 0xFF#8, 0xFF#8, 0xAA#8, 0xBB#8, 0xCC#8, 0xDD#8, 0xEE#8, 0xFF#8, 0x08#8, 0x00#8,
          0x45#8, 0x00#8, 0x00#8, 0x1F#8, 0x00#8, 0x00#8, 0x00#8, 0x00#8, 0x40#8, 0x01#8, 0xA9#8, 0x1C#8, 0xC0#8, 0xA8#8,
          0x01#8, 0x0A#8, 0x08#8, 0x08#8, 0x08#8, 0x08#8, 0x08#8, 0x00#8, 0x21#8, 0x68#8, 0x12#8, 0x34#8, 0x00#8, 0x01#8,
          0x61#8, 0x62#8, 0x63#8]) = true := by decide

/-- V-G5: the smallest rejected `PING` payload. -/
theorem test_ping_rejects_65508 :
    nextSatisfies (exec .ping (unwritten 65508#16)) (fun t =>
      statusByte t.status == 0x22#8 && t.outLen == 0#17) = true := by decide

/-! ## The port -/

/-- V-X4: only bits 7:0 of the data name the command; here `ICMP` on the empty input (V-I2). -/
theorem test_command_is_the_low_byte :
    nextSatisfies (step (State.reset.facing (regWriteInput 0#17 0x102#48) [])) (fun t =>
      t.outBuf == Memory.cellsAt 0 [0x08#8, 0x00#8, 0xF7#8, 0xFF#8, 0x00#8, 0x00#8, 0x00#8, 0x00#8] &&
        t.pending == []) = true := by decide

/-- V-X1: the reserved command 0x07 hides the earlier result. -/
theorem test_illegal_command :
    nextSatisfies (step ((resulted [0x01#8]).facing (regWriteInput 0#17 0x07#48) [])) (fun t =>
      statusByte t.status == 0x12#8 && t.outLen == 0#17) = true := by decide

/-- V-X14: an `IN` index of 65536 does not wrap to 0. -/
theorem test_in_index_does_not_wrap :
    nextSatisfies (step ((loaded [0x77#8]).facing (inWriteInput 65536#17 0x11#48) [])) (fun t =>
      t.inBuf == [(0, 0x77#8)]) = true := by decide

/-- V-X19: a command on an unwritten byte has no defined result. -/
theorem test_unwritten_input_faults :
    faults (step ((unwritten 1#16).facing (regWriteInput 0#17 0x01#48) [])) = true := by decide

/-- V-X11: bits above 15 of a write to `ICMP_ID` are dropped. -/
theorem test_register_write_truncates :
    nextSatisfies (step (State.reset.facing (regWriteInput 5#17 0x12345#48) [])) (fun t =>
      t.icmpId == 0x2345#16) = true := by decide

/-- 30_encoding.md R68 with the addresses of 95_test_vectors.md P4, lines 1 and 2. -/
theorem test_pseudo_operations :
    expand (.setIp 192#8 168#8 1#8 10#8 8#8 8#8 8#8 8#8) = [.wr .ipSrc 0xC0A8010A#48, .wr .ipDst 0x08080808#48] ∧
    expand (.setMac 0xFF#8 0xFF#8 0xFF#8 0xFF#8 0xFF#8 0xFF#8 0xAA#8 0xBB#8 0xCC#8 0xDD#8 0xEE#8 0xFF#8) =
      [.wr .ethDst 0xFFFFFFFFFFFF#48, .wr .ethSrc 0xAABBCCDDEEFF#48] ∧
    expand (.load [0xAA#8]) = [.wrin 0#17 0xAA#8, .wr .inLen 1#48] := by decide

/-! ## Witnesses: the hypotheses of the statements can be met -/

theorem loaded_inputIs {p : List Byte} (h : p.length ≤ 65535) : InputIs (loaded p) p := by
  refine ⟨?_, fun i _ => read_cellsAt_zero p i⟩
  show p.length = (BitVec.ofNat 16 p.length).toNat
  rw [BitVec.toNat_ofNat, Nat.mod_eq_of_lt (by omega)]

theorem loaded_inLen {p : List Byte} (h : p.length ≤ 65535) : (loaded p).inLen.toNat = p.length :=
  (loaded_inputIs h).1.symm

theorem resulted_stateInv {b : List Byte} (h : b.length ≤ 65549) : StateInv (resulted b) where
  inWf := wf_nil _
  outWf := wf_cellsAt (by rw [Nat.zero_add]; exact h)
  outLenLe := by rw [resulted, deliver_outLen, outLen_toNat_of_le h]; exact h
  outDefined := by
    intro i hi
    rw [resulted, deliver_outLen, outLen_toNat_of_le h] at hi
    rw [resulted, deliver_outBuf, read_cellsAt_zero, List.getElem?_eq_getElem hi]
    rfl
  notBoth := by simp [resulted]
  noCode := fun _ => rfl
  errCode := by simp [resulted]

/-- `n` zero bytes. -/
def zeros (n : Nat) : List Byte := List.replicate n 0x00#8

@[simp] theorem zeros_length (n : Nat) : (zeros n).length = n := List.length_replicate ..

theorem witness_DecodeAndEncodeAgree : decode 0x06#8 = .ok .ping := by decide

theorem witness_StepRunsDecodedCommand : decode ((0x102#48).setWidth 8) = .ok .icmp := by decide

theorem witness_IllegalCommandFailsClosed :
    0x07 ≤ ((0x07#48).setWidth 8 : Byte).toNat ∧ 0x07 ≤ ((0xFF#48).setWidth 8 : Byte).toNat ∧
    0xB ≤ (0xB#17).toNat ∧ 0xB ≤ (0x1FFFF#17).toNat := by decide

theorem witness_ResetEdgeTakesResetState :
    resetEdge.rst = true ∧ ({ commandWrite 0x06#8 with rst := true } : PortInput).rst = true ∧
    ({ resetEdge with rst := false } : PortInput).rst = false ∧ resetEdge.reqValid = false ∧
    State.reset.pending = [] := by decide

theorem witness_RegisterReadAnswers : (0xA#17).toNat < 0xB ∧ 0xB ≤ (0xB#17).toNat ∧ 0xB ≤ (0x1FFFF#17).toNat := by
  decide

theorem witness_InputByteWriteSetsOneByte : (65535#17).toNat ≤ 65535 ∧ 65535 < (65536#17).toNat := by decide

theorem witness_InputByteReadAnswers :
    ({ State.reset with inBuf := [(65535, 0xAB#8)] } : State).inBuf.read (65535#17).toNat = some 0xAB#8 ∧
    State.reset.inBuf.read (65535#17).toNat = none ∧ 65535 < (65536#17).toNat := by decide

theorem witness_OutputIsReadOnly :
    (0#17).toNat < (resulted [0x04#8]).outLen.toNat ∧ (resulted [0x04#8]).outBuf.read (0#17).toNat = some 0x04#8 ∧
    (resulted [0x04#8]).outLen.toNat ≤ (1#17).toNat ∧ (resulted [0x04#8]).outLen.toNat ≤ (65549#17).toNat := by decide

theorem witness_LoadMakesTheInput : ([] : List Byte).length ≤ 65535 ∧ (zeros 65535).length ≤ 65535 :=
  ⟨Nat.zero_le _, (zeros_length _).le⟩

theorem witness_ChecksumSumsBigEndianWords :
    [0x01#8].length % 2 = 1 ∧ ([] : List Byte).length % 2 = 0 ∧ 0 = 0xFFFF - (csum16 []).toNat := by decide

theorem witness_DeferredFoldingAgrees : [0x0001#16, 0x0002#16].Perm [0x0002#16, 0x0001#16] := List.Perm.swap _ _ _

/-- The ICMP message of V-C18 with its checksum field at index 2. -/
theorem witness_ChecksumSelfVerifies :
    let h := [0x08#8, 0x00#8, 0xF2#8, 0x10#8, 0x00#8, 0x45#8, 0x01#8, 0xA4#8, 0x01#8, 0x02#8, 0x03#8, 0x04#8]
    2 % 2 = 0 ∧ 2 + 1 < h.length ∧
      [h[2]?, h[3]?] = (csumBytes ((h.set 2 0x00#8).set 3 0x00#8)).map some := by decide

theorem witness_IcmpChecksumProperties : [0x01#8, 0x02#8].length % 2 = 0 := by decide

theorem witness_Ipv4PacketLayout : ([] : List Byte).length ≤ 65515 ∧ (zeros 65515).length ≤ 65515 :=
  ⟨Nat.zero_le _, (zeros_length _).le⟩

theorem witness_OversizePayloadIsRejected :
    65516 ≤ (zeros 65516).length ∧ (zeros 65515).length ≤ 65515 ∧ 65516 ≤ (unwritten 65516#16).inLen.toNat :=
  ⟨(zeros_length _).ge, (zeros_length _).le, by decide⟩

theorem witness_Ipv4HeaderProperties :
    (∃ k, ipv4Encode 0x0A000005#32 0x01010101#32 (zeros 65515) = .ok k) ∧
    (∃ k, ipv4Encode 0x00000000#32 0x00000000#32 [] = .ok k) ∧
    (∃ k, ipv4Encode 0xFFFFFFFF#32 0xFFFFFFFF#32 [] = .ok k) :=
  ⟨⟨_, ipv4Encode_of_le _ _ (zeros_length _).le⟩, ⟨_, ipv4Encode_of_le _ _ (Nat.zero_le _)⟩,
    ⟨_, ipv4Encode_of_le _ _ (Nat.zero_le _)⟩⟩

theorem witness_PingFrameLayout : (zeros 65507).length ≤ 65507 ∧ 65507 < (zeros 65508).length :=
  ⟨(zeros_length _).le, by rw [zeros_length]; decide⟩

/-- The empty input. -/
theorem witness_CsumCommandCompletes : InputIs (loaded []) [] := loaded_inputIs (by decide)

/-- An odd input. -/
theorem witness_IcmpCommandCompletes : InputIs (loaded [0xAB#8]) [0xAB#8] := loaded_inputIs (by decide)

/-- The longest input. -/
theorem witness_EthCommandCompletes : InputIs (loaded (zeros 65535)) (zeros 65535) := loaded_inputIs (zeros_length _).le

theorem witness_Ipv4CommandCompletesOrRaises :
    (InputIs (loaded (zeros 65515)) (zeros 65515) ∧ (loaded (zeros 65515)).inLen.toNat ≤ 65515) ∧
    65516 ≤ (unwritten 65516#16).inLen.toNat :=
  ⟨⟨loaded_inputIs (by simp), by rw [loaded_inLen (by simp)]; simp⟩, by decide⟩

theorem witness_PingCommandCompletesOrRaises :
    (InputIs (loaded (zeros 65507)) (zeros 65507) ∧ (loaded (zeros 65507)).inLen.toNat ≤ 65507) ∧
    65508 ≤ (unwritten 65508#16).inLen.toNat :=
  ⟨⟨loaded_inputIs (by simp), by rw [loaded_inLen (by simp)]; simp⟩, by decide⟩

theorem witness_XferCommandCopiesOrRaises :
    (StateInv (resulted (zeros 65535)) ∧ (resulted (zeros 65535)).outLen.toNat ≤ 65535) ∧
    (StateInv (resulted (zeros 65536)) ∧ 65536 ≤ (resulted (zeros 65536)).outLen.toNat) := by
  refine ⟨⟨resulted_stateInv (by simp), ?_⟩, ⟨resulted_stateInv (by simp), ?_⟩⟩ <;>
    rw [resulted, deliver_outLen, outLen_toNat_of_le (by simp)] <;> simp

theorem witness_XferAfterXferLenIsEmpty : 65536 ≤ (resulted (zeros 65536)).outLen.toNat :=
  witness_XferCommandCopiesOrRaises.2.2

theorem witness_OutputBeyondResultIsUnspecified :
    ∃ t, exec .csum (loaded [0x01#8]) = .next t ∧ t.status.err = false :=
  ⟨_, (exec_delivers (i := .csum) trivial (loaded_inputIs (by decide))).1, rfl⟩

/-- A command that frames, and `XFER`. -/
theorem witness_CommandsLeaveTheirInputs :
    (∃ t, exec .icmp (loaded [0x01#8]) = .next t) ∧ ∃ t, exec .xfer (resulted [0x01#8]) = .next t :=
  ⟨⟨_, (exec_delivers (i := .icmp) trivial (loaded_inputIs (by decide))).1⟩, ⟨_, rfl⟩⟩

/-- The longest result that `XFER` takes, a command that frames, and one that raises. -/
theorem witness_RepeatedCommandChangesNothing :
    ((resulted (zeros 65535)).outLen.toNat ≤ 65535 ∧ ∃ t, exec .xfer (resulted (zeros 65535)) = .next t) ∧
    (∃ t, exec .icmp (loaded [0x01#8]) = .next t) ∧ ∃ t, exec .ipv4 (unwritten 65516#16) = .next t :=
  ⟨⟨witness_XferCommandCopiesOrRaises.1.2, ⟨_, execXfer_of_le witness_XferCommandCopiesOrRaises.1.2⟩⟩,
    witness_CommandsLeaveTheirInputs.1, ⟨_, rfl⟩⟩

/-- Each cause of R170 at its boundary, and a command that completes. -/
theorem witness_ErrorsHaveExactCauses :
    (∃ t, step (State.reset.facing (regWriteInput 0#17 0x07#48) []) = .next t ∧ t.status.errcode = 1#4) ∧
    (∃ t, step ((unwritten 65516#16).facing (regWriteInput 0#17 0x03#48) []) = .next t ∧ t.status.errcode = 2#4) ∧
    (∃ t, step ((unwritten 65508#16).facing (regWriteInput 0#17 0x06#48) []) = .next t ∧ t.status.errcode = 2#4) ∧
    (∃ t, step (({ State.reset with outLen := 65536#17 } : State).facing (regWriteInput 0#17 0x05#48) []) = .next t ∧
      t.status.errcode = 3#4) ∧
    (∃ t, step (({ State.reset with outLen := 65535#17 } : State).facing (regWriteInput 0#17 0x05#48) []) = .next t ∧
      t.status.errcode = 0#4) :=
  ⟨⟨_, rfl, rfl⟩, ⟨_, rfl, rfl⟩, ⟨_, rfl, rfl⟩, ⟨_, rfl, rfl⟩, ⟨_, rfl, rfl⟩⟩

theorem witness_FaultExactlyOnUnwrittenInput :
    ReadsInput .csum (unwritten 1#16) ∧ 0 < (unwritten 1#16).inLen.toNat ∧ (unwritten 1#16).inBuf.read 0 = none ∧
    ReadsInput .ipv4 (unwritten 65515#16) ∧ ReadsInput .ping (unwritten 65507#16) :=
  ⟨trivial, by decide, rfl, by unfold ReadsInput; decide, by unfold ReadsInput; decide⟩

theorem witness_EveryStepCompletesOnWrittenInput : InputWritten State.reset ∧ InputWritten (loaded [0x01#8, 0x02#8]) :=
  ⟨fun _ h => absurd h (Nat.not_lt_zero _), inputWritten_iff.mpr ⟨_, loaded_inputIs (by decide)⟩⟩

/-- A `CMD` write of `SRST`, one of another command, an edge with `rst` = 1, and inputs that write no `CMD`. -/
theorem witness_StatusDescribesLastCommand :
    (∃ t, step (State.reset.facing (regWriteInput 0#17 0x00#48) []) = .next t) ∧
    (∃ t, step (State.reset.facing (regWriteInput 0#17 0x05#48) []) = .next t) ∧
    (resetEdge.rst = true ∧ ∃ t, step (State.reset.facing resetEdge []) = .next t) ∧
    ((regWriteInput 2#17 0x4#48).rst = false ∧ (regWriteInput 2#17 0x4#48).writesCmd = false ∧
      ∃ t, step (State.reset.facing (regWriteInput 2#17 0x4#48) []) = .next t) :=
  ⟨⟨_, rfl⟩, ⟨_, rfl⟩, ⟨rfl, _, rfl⟩, rfl, rfl, ⟨_, rfl⟩⟩

/-- A write of each operand register, `SRST` and a reset edge, each of which changes one. -/
theorem witness_OperandRegistersAreTheHosts :
    (∃ t, step (State.reset.facing (regWriteInput 0x5#17 0x1#48) []) = .next t ∧ t.icmpId ≠ State.reset.icmpId) ∧
    (∃ t, step (State.reset.facing (regWriteInput 0x6#17 0x1#48) []) = .next t ∧ t.icmpSeq ≠ State.reset.icmpSeq) ∧
    (∃ t, step (State.reset.facing (regWriteInput 0x7#17 0x1#48) []) = .next t ∧ t.ipSrc ≠ State.reset.ipSrc) ∧
    (∃ t, step (State.reset.facing (regWriteInput 0x8#17 0x1#48) []) = .next t ∧ t.ipDst ≠ State.reset.ipDst) ∧
    (∃ t, step (State.reset.facing (regWriteInput 0x9#17 0x1#48) []) = .next t ∧ t.ethDst ≠ State.reset.ethDst) ∧
    (∃ t, step (State.reset.facing (regWriteInput 0xA#17 0x1#48) []) = .next t ∧ t.ethSrc ≠ State.reset.ethSrc) ∧
    (∃ t, step (({ State.reset with icmpId := 1#16 } : State).facing (commandWrite 0x00#8) []) = .next t ∧
      t.icmpId ≠ 1#16) ∧
    (∃ t, step (({ State.reset with ethSrc := 1#48 } : State).facing resetEdge []) = .next t ∧ t.ethSrc ≠ 1#48) :=
  ⟨⟨_, rfl, by decide⟩, ⟨_, rfl, by decide⟩, ⟨_, rfl, by decide⟩, ⟨_, rfl, by decide⟩, ⟨_, rfl, by decide⟩,
    ⟨_, rfl, by decide⟩, ⟨_, rfl, by decide⟩, ⟨_, rfl, by decide⟩⟩

/-- An input for `CSUM`, commands other than `CSUM`, `SRST`, and a transaction that writes no `CMD`. -/
theorem witness_CsumRegisterHasOneWriter :
    (InputIs (loaded [0x01#8]) [0x01#8] ∧ ∃ t, exec .csum (loaded [0x01#8]) = .next t) ∧
    (∃ t, exec .icmp State.reset = .next t) ∧ (∃ t, exec .srst State.reset = .next t) ∧
    ((regReadInput 4#17 0#48).rst = false ∧ (regReadInput 4#17 0#48).writesCmd = false ∧
      ∃ t, step (State.reset.facing (regReadInput 4#17 0#48) []) = .next t) :=
  ⟨⟨loaded_inputIs (by decide), ⟨_, (exec_delivers (i := .csum) trivial (loaded_inputIs (by decide))).1⟩⟩,
    ⟨_, rfl⟩, ⟨_, rfl⟩, rfl, rfl, ⟨_, rfl⟩⟩

/-- A transaction that writes no `CMD`, and an `XFER` that completes. -/
theorem witness_OutputIsWrittenByCommandsOnly :
    ((inWriteInput 0#17 0#48).rst = false ∧ (inWriteInput 0#17 0#48).writesCmd = false ∧
      ∃ t, step (State.reset.facing (inWriteInput 0#17 0#48) []) = .next t) ∧
    ∃ t, exec .xfer State.reset = .next t ∧ t.status.err = false :=
  ⟨⟨rfl, rfl, ⟨_, rfl⟩⟩, ⟨_, rfl, rfl⟩⟩

/-- Two different states that agree on the inputs of `CSUM`, and two that agree on those of `XFER`. -/
theorem witness_ResultDependsOnInputsOnly :
    (SameOperands State.reset { State.reset with csum := 1#16, inBuf := [(0, 0x01#8)] } ∧
      ∃ t, exec .csum State.reset = .next t) ∧
    ((∀ a, a < (resulted [0x01#8]).outLen.toNat →
      Memory.read [(0, 0x01#8), (1, 0x02#8)] a = (resulted [0x01#8]).outBuf.read a) ∧
      ∃ t, exec .xfer (resulted [0x01#8]) = .next t) :=
  ⟨⟨⟨rfl, rfl, rfl, rfl, rfl, rfl⟩, ⟨_, rfl⟩⟩, by decide, ⟨_, rfl⟩⟩

/-- The four bounds of R154. -/
theorem witness_LayerByLayerEqualsPing :
    (InputIs (loaded (zeros 65507)) (zeros 65507) ∧ (loaded (zeros 65507)).inLen.toNat ≤ 65507) ∧
    (InputIs (loaded (zeros 65508)) (zeros 65508) ∧ 65507 < (loaded (zeros 65508)).inLen.toNat) ∧
    (InputIs (loaded (zeros 65527)) (zeros 65527) ∧ (loaded (zeros 65527)).inLen.toNat ≤ 65527) ∧
    (InputIs (loaded (zeros 65528)) (zeros 65528) ∧ 65527 < (loaded (zeros 65528)).inLen.toNat) := by
  refine ⟨⟨loaded_inputIs (by simp), ?_⟩, ⟨loaded_inputIs (by simp), ?_⟩, ⟨loaded_inputIs (by simp), ?_⟩,
    ⟨loaded_inputIs (by simp), ?_⟩⟩ <;> rw [loaded_inLen (by simp)] <;> simp

theorem witness_StepKeepsInvariant : StateInv (resulted [0x01#8]) ∧ ∃ t, step (resulted [0x01#8]) = .next t :=
  ⟨resulted_stateInv (by decide), ⟨_, rfl⟩⟩

/-- The last `IN` index. -/
theorem witness_ReadReturnsLastWrite : (65535#17).toNat ≤ 65535 := by decide

end Sys2Proof.Tests
end

section
/-!
PROOFS. The result of a command depends on its inputs only (00_scope.md R2): each thing `exec_next_cases` speaks of (the
guard of a delivery, the delivered bytes, the cause of an error) is read from the command's inputs alone, so the case that
one state falls under is the case of every state that agrees with it there.
-/

namespace Sys2Proof.Machine

/-! ## What decides a command's case -/

/-- Whether a command reads the `IN` bytes depends on `IN_LEN` only. -/
theorem ReadsInput.congr {i : Instr} {s s' : State} (h : ReadsInput i s) (hl : s'.inLen = s.inLen) :
    ReadsInput i s' := by
  unfold ReadsInput at h ⊢
  rwa [hl]

/-- The delivered bytes depend on the operand registers and the input only. -/
theorem resultOf_congr {s s' : State} (ho : SameOperands s s') (i : Instr) (p : List Byte) :
    resultOf i s' p = resultOf i s p := by
  unfold resultOf
  rw [ho.icmpId, ho.icmpSeq, ho.ipSrc, ho.ipDst, ho.ethDst, ho.ethSrc]

/-- The register `CSUM` after a `CSUM` command depends on the input only (40_checksum.md R88). -/
@[simp] theorem csumAfter_csum (s : State) (p : List Byte) : csumAfter .csum s p = csum16 p := rfl

/-- Which error a command raises depends on the one length it tests: `OUT_LEN` for `XFER`, `IN_LEN` for the others. -/
theorem RaisesError.congr {i : Instr} {e : CommandError} {s s' : State} (h : RaisesError i e s)
    (hin : i ≠ .xfer → s'.inLen = s.inLen) (hout : i = .xfer → s'.outLen = s.outLen) : RaisesError i e s' := by
  rcases h with ⟨rfl, rfl, h⟩ | ⟨rfl, rfl, h⟩ | ⟨rfl, rfl, h⟩
  · exact .inl ⟨rfl, rfl, by rwa [hin (by decide)]⟩
  · exact .inr (.inl ⟨rfl, rfl, by rwa [hin (by decide)]⟩)
  · exact .inr (.inr ⟨rfl, rfl, by rwa [hout rfl]⟩)

theorem not_raisesError_csum (e : CommandError) (s : State) : ¬ RaisesError .csum e s := by
  rintro (⟨h, -⟩ | ⟨h, -⟩ | ⟨h, -⟩) <;> cases h

/-! ## The result from two states that agree on the inputs -/

/-- Commands other than `XFER`: their inputs are the operand registers and `IN[0..IN_LEN)` (10_state.md R30). -/
theorem exec_result_congr {i : Instr} {s s' t : State} (hx : i ≠ .xfer) (ho : SameOperands s s')
    (hl : s'.inLen = s.inLen) (hb : ∀ a, a < s.inLen.toNat → s'.inBuf.read a = s.inBuf.read a)
    (h : exec i s = .next t) :
    ∃ t' : State, exec i s' = .next t' ∧ t'.status = t.status ∧ t'.outLen = t.outLen ∧
      (∀ a, a < t.outLen.toNat → t'.outBuf.read a = t.outBuf.read a) ∧ (i = .csum → t'.csum = t.csum) := by
  rcases exec_next_cases h with ⟨hi, p, hp, -, rfl⟩ | ⟨e, he, rfl⟩ | ⟨hi, -⟩ | ⟨rfl, rfl⟩
  · refine ⟨_, (exec_delivers (hi.congr hl) (hp.congr hl hb)).1, ?_⟩
    rw [resultOf_congr ho]
    exact ⟨rfl, rfl, fun _ _ => rfl, by rintro rfl; simp⟩
  · refine ⟨_, exec_raises (he.congr (fun _ => hl) fun hi => absurd hi hx), rfl, rfl, by simp, ?_⟩
    rintro rfl
    exact absurd he (not_raisesError_csum e s)
  · exact absurd hi hx
  · exact ⟨_, rfl, rfl, rfl, by simp, fun hi => by cases hi⟩

/-- `XFER`: its inputs are `OUT_LEN` and `OUT[0..OUT_LEN)`, and what it makes of them is the input of the next command
(44_compose_and_system.md R152). -/
theorem exec_xfer_result_congr {s s' t : State} (hl : s'.outLen = s.outLen)
    (hb : ∀ a, a < s.outLen.toNat → s'.outBuf.read a = s.outBuf.read a) (h : exec .xfer s = .next t) :
    ∃ t' : State, exec .xfer s' = .next t' ∧ t'.status = t.status ∧ t'.outLen = t.outLen ∧
      (t.status.err = false → t'.inLen = t.inLen ∧ ∀ a, a < t.inLen.toNat → t'.inBuf.read a = t.inBuf.read a) := by
  rcases exec_next_cases h with ⟨hi, -⟩ | ⟨e, he, rfl⟩ | ⟨-, hn, rfl⟩ | ⟨hi, -⟩
  · exact hi.elim
  · exact ⟨_, exec_raises (he.congr (fun hx => absurd rfl hx) fun _ => hl), rfl, rfl,
      fun herr => by simp at herr⟩
  · refine ⟨_, execXfer_of_le (by rwa [hl]), rfl, hl, fun _ => ⟨by simp [hl], fun a ha => ?_⟩⟩
    have ha' : a < s.outLen.toNat :=
      Nat.lt_of_lt_of_le ha (by simpa using Nat.mod_le s.outLen.toNat _)
    simp [read_copyFirst, hl, ha', hb a ha']
  · cases hi

/-- Settles O44: the case a command falls under, and what it delivers, raises or copies there, are read from its inputs
alone (`exec_next_cases` with the congruence of each case). -/
theorem resultDependsOnInputsOnly : Obligations.ResultDependsOnInputsOnly :=
  ⟨fun _ _ _ _ hx ho hl hb h => exec_result_congr hx ho hl hb h,
    fun _ _ _ hl hb h => exec_xfer_result_congr hl hb h⟩

end Sys2Proof.Machine
end


section
/-!
PROOFS. What every step and every command keeps (10_state.md): the invariant first, one lemma per operation on the state,
then the frame of a command and of a transaction that is no `CMD` write, and the rules of the chapter read off from those.
-/

namespace Sys2Proof.Machine

/-! ## The invariant, operation by operation -/

/-- With no output claimed and `STATUS` clear, what remains of the invariant is the form of the buffers. -/
theorem stateInv_of_clear {t : State} (hi : t.inBuf.wf Config.inSize) (ho : t.outBuf.wf Config.outSize)
    (hs : t.status = clearStatus) (hl : t.outLen = 0#17) : StateInv t where
  inWf := hi
  outWf := ho
  outLenLe := by simp [hl]
  outDefined := by simp [hl]
  notBoth := by simp [hs, clearStatus]
  noCode := by simp [hs, clearStatus]
  errCode := by simp [hs, clearStatus]

/-- Settles O48: nothing is listed in either buffer, no output is claimed and `STATUS` is clear. -/
theorem resetMeetsInvariant : Obligations.ResetMeetsInvariant :=
  stateInv_of_clear (wf_nil _) (wf_nil _) rfl rfl

/-- The three codes of 60_exceptions.md R170. -/
theorem errorCode_bounds (e : CommandError) : 1 ≤ (errorCode e).toNat ∧ (errorCode e).toNat ≤ 3 := by
  cases e <;> decide

/-- A step that writes nothing but a legal `STATUS` without error keeps the invariant. -/
theorem StateInv.of_noError {s t : State} (h : StateInv s) (he : t.status.err = false)
    (hc : t.status.errcode = 0#4) (hl : t.outLen = s.outLen) (hi : t.inBuf = s.inBuf)
    (ho : t.outBuf = s.outBuf) : StateInv t where
  inWf := hi ▸ h.inWf
  outWf := ho ▸ h.outWf
  outLenLe := hl ▸ h.outLenLe
  outDefined := by rw [hl, ho]; exact h.outDefined
  notBoth := by simp [he]
  noCode := fun _ => hc
  errCode := by simp [he]

/-- An error claims no output, and its code is one of the three (60_exceptions.md R173). -/
theorem StateInv.raise {s : State} (h : StateInv s) (e : CommandError) : StateInv (raise e s) where
  inWf := h.inWf
  outWf := h.outWf
  outLenLe := by simp
  outDefined := by simp
  notBoth := by simp
  noCode := by simp
  errCode := fun _ => ⟨(errorCode_bounds e).1, (errorCode_bounds e).2, rfl⟩

theorem StateInv.softReset {s : State} (h : StateInv s) : StateInv (softReset s) :=
  stateInv_of_clear h.inWf h.outWf rfl rfl

/-- A result that fits `OUT` defines every byte it claims. -/
theorem StateInv.deliver {s : State} (h : StateInv s) {b : List Byte} (hb : b.length ≤ 65549) :
    StateInv (deliver b s) where
  inWf := h.inWf
  outWf := wf_cellsAt (by simpa [Config.outSize] using hb)
  outLenLe := by rw [deliver_outLen, outLen_toNat_of_le hb]; exact hb
  outDefined := fun i hi => by
    rw [deliver_outLen, outLen_toNat_of_le hb] at hi
    rw [deliver_outBuf, read_cellsAt_zero, List.getElem?_eq_getElem hi]
    rfl
  notBoth := by simp
  noCode := fun _ => rfl
  errCode := by simp

/-- What a state claims of `IN` is its canonical form alone. -/
theorem StateInv.withInBuf {s : State} (h : StateInv s) {m : Memory} (hm : m.wf Config.inSize) :
    StateInv { s with inBuf := m } where
  inWf := hm
  outWf := h.outWf
  outLenLe := h.outLenLe
  outDefined := h.outDefined
  notBoth := h.notBoth
  noCode := h.noCode
  errCode := h.errCode

/-- A result that `XFER` takes fits `IN` (44_compose_and_system.md R152). -/
theorem StateInv.copyResult {s : State} (h : StateInv s) (hn : s.outLen.toNat ≤ 65535) : StateInv (copyResult s) :=
  (h.withInBuf (wf_copyFirst h.outWf h.inWf (Nat.le_succ_of_le hn))).congr rfl rfl rfl rfl

/-! ## The invariant, command by command and step by step -/

theorem StateInv.exec {i : Instr} {s t : State} (h : StateInv s) (he : exec i s = .next t) : StateInv t := by
  rcases exec_next_cases he with ⟨-, p, -, hl, rfl⟩ | ⟨e, -, rfl⟩ | ⟨-, hn, rfl⟩ | ⟨-, rfl⟩
  · have hs : StateInv { s with csum := csumAfter i s p } := h.congr rfl rfl rfl rfl
    exact hs.deliver hl
  · exact h.raise e
  · exact (h.copyResult hn).of_noError rfl rfl rfl rfl rfl
  · exact h.softReset

theorem StateInv.runCommand {c : Byte} {s t : State} (h : StateInv s) (hc : runCommand c s = .next t) :
    StateInv t := by
  have hstart : StateInv (commandStart s) := h.of_noError rfl rfl rfl rfl rfl
  rcases runCommand_cases c s with ⟨i, -, e⟩ | ⟨-, -, e⟩ <;> rw [e] at hc
  · exact hstart.exec hc
  · cases hc; exact hstart.raise _

theorem StateInv.step_facing {s t : State} {p : PortInput} {rest : List PortInput} (h : StateInv s)
    (hs : step (s.facing p rest) = .next t) : StateInv t := by
  rcases step_facing_cases s p rest with
    ⟨-, e⟩ | ⟨-, e⟩ | ⟨-, -, r, k, e⟩ | ⟨-, -, -, -, -, r, -, -, e⟩ | ⟨-, -, i, b, hi, e⟩ <;> rw [e] at hs
  · cases hs; exact StateInv.congr resetMeetsInvariant rfl rfl rfl rfl
  · exact (h.congr rfl rfl rfl rfl : StateInv { s with pending := rest, response := .writeDone }).runCommand hs
  · cases hs; exact h.congr rfl rfl rfl rfl
  · cases hs
    obtain ⟨hst, hout, -, hin, hob, -⟩ := writeReg_frame r p.req.wdata { s with pending := rest, response := .writeDone }
    exact h.congr hst hout hin hob
  · cases hs
    have hwf : (s.inBuf.store i [b]).wf Config.inSize := wf_store h.inWf (Nat.succ_le_succ hi)
    exact (h.withInBuf hwf).congr rfl rfl rfl rfl

/-- Settles O49: with nothing to come the core waits, and otherwise each of the things an edge can do keeps the invariant
(`StateInv.step_facing`). -/
theorem stepKeepsInvariant : Obligations.StepKeepsInvariant := by
  intro s t h hs
  cases hp : s.pending with
  | nil =>
    rw [step_waiting hp] at hs
    cases hs
    exact h.congr rfl rfl rfl rfl
  | cons p rest =>
    rw [facing_of_pending hp] at hs
    exact (h.congr rfl rfl rfl rfl : StateInv { s with pending := rest }).step_facing hs

/-! ## What a command leaves as it was -/

/-- No command but `SRST` writes an operand register (10_state.md R17). -/
theorem exec_sameOperands {i : Instr} {s t : State} (hi : i ≠ .srst) (h : exec i s = .next t) : SameOperands s t := by
  rcases exec_next_cases h with ⟨-, p, -, -, rfl⟩ | ⟨e, -, rfl⟩ | ⟨-, -, rfl⟩ | ⟨hr, -⟩
  · exact ⟨rfl, rfl, rfl, rfl, rfl, rfl⟩
  · exact ⟨rfl, rfl, rfl, rfl, rfl, rfl⟩
  · exact ⟨rfl, rfl, rfl, rfl, rfl, rfl⟩
  · exact absurd hr hi

/-- No command but `XFER` and `SRST` writes its input (10_state.md R30). -/
theorem exec_sameInput {i : Instr} {s t : State} (hx : i ≠ .xfer) (hi : i ≠ .srst) (h : exec i s = .next t) :
    SameInput s t := by
  rcases exec_next_cases h with ⟨-, p, -, -, rfl⟩ | ⟨e, -, rfl⟩ | ⟨hc, -, -⟩ | ⟨hr, -⟩
  · exact ⟨rfl, fun _ => rfl⟩
  · exact ⟨rfl, fun _ => rfl⟩
  · exact absurd hc hx
  · exact absurd hr hi

/-- `XFER` writes no `OUT` byte, and no `OUT_LEN` unless it raises. -/
theorem exec_xfer_output {s t : State} (h : exec .xfer s = .next t) :
    t.outBuf = s.outBuf ∧ (t.status.err = false → t.outLen = s.outLen) := by
  rcases exec_next_cases h with ⟨hr, -⟩ | ⟨e, -, rfl⟩ | ⟨-, -, rfl⟩ | ⟨hr, -⟩
  · exact hr.elim
  · exact ⟨rfl, by simp⟩
  · exact ⟨rfl, fun _ => rfl⟩
  · cases hr

theorem csumAfter_of_ne {i : Instr} (hi : i ≠ .csum) (s : State) (p : List Byte) : csumAfter i s p = s.csum :=
  if_neg hi

/-- No command but `CSUM` and `SRST` writes the register `CSUM` (10_state.md R25). -/
theorem exec_csum_of_ne {i : Instr} {s t : State} (hc : i ≠ .csum) (hi : i ≠ .srst) (h : exec i s = .next t) :
    t.csum = s.csum := by
  rcases exec_next_cases h with ⟨-, p, -, -, rfl⟩ | ⟨e, -, rfl⟩ | ⟨-, -, rfl⟩ | ⟨hr, -⟩
  · exact csumAfter_of_ne hc s p
  · rfl
  · rfl
  · exact absurd hr hi

/-- What commands alone write: a transaction that is no `CMD` write leaves `STATUS`, `OUT_LEN`, `CSUM` and `OUT`. -/
theorem step_frame_of_not_writesCmd {s t : State} {p : PortInput} {rest : List PortInput} (hr : p.rst = false)
    (hc : p.writesCmd = false) (h : step (s.facing p rest) = .next t) :
    t.status = s.status ∧ t.outLen = s.outLen ∧ t.csum = s.csum ∧ t.outBuf = s.outBuf := by
  rcases step_facing_cases s p rest with
    ⟨hr', -⟩ | ⟨hc', -⟩ | ⟨-, -, r, k, e⟩ | ⟨-, -, -, -, -, r, -, -, e⟩ | ⟨-, -, i, b, -, e⟩
  · simp [hr] at hr'
  · simp [hc] at hc'
  · rw [e] at h; cases h; exact ⟨rfl, rfl, rfl, rfl⟩
  · rw [e] at h; cases h
    obtain ⟨hst, hout, hcs, -, hob, -⟩ := writeReg_frame r p.req.wdata { s with pending := rest, response := .writeDone }
    exact ⟨hst, hout, hcs, hob⟩
  · rw [e] at h; cases h; exact ⟨rfl, rfl, rfl, rfl⟩

/-! ## Input, result and faults -/

/-- Settles O35: without an error such a command has delivered its result, and a delivered result is all that `OUT` lists. -/
theorem outputBeyondResultIsUnspecified : Obligations.OutputBeyondResultIsUnspecified := by
  intro i s t hi h herr a ha
  rcases exec_next_cases h with ⟨-, p, -, hl, rfl⟩ | ⟨e, -, rfl⟩ | ⟨rfl, -⟩ | ⟨rfl, -⟩
  · rw [deliver_outLen, outLen_toNat_of_le hl] at ha
    rw [deliver_outBuf, read_cellsAt_zero, List.getElem?_eq_none ha]
  · simp at herr
  · simp at hi
  · simp at hi

/-- Settles O37: of the things a command can do (`exec_cases`) one is a fault, and it comes with the reason. -/
theorem faultExactlyOnUnwrittenInput : Obligations.FaultExactlyOnUnwrittenInput := by
  refine fun i s => ⟨fun f => ⟨fun h => ?_, ?_⟩, exec_not_refused i s⟩
  · rcases exec_cases i s with ⟨-, p, -, -, e⟩ | ⟨hi, hk, e⟩ | ⟨x, -, e⟩ | ⟨-, -, e⟩ | ⟨-, e⟩ <;>
      rw [e] at h <;> cases h
    exact ⟨rfl, hi, hk⟩
  · rintro ⟨rfl, hi, hk⟩
    exact exec_faults hi hk

/-- Settles O43, from the frame of each command. -/
theorem commandsLeaveTheirInputs : Obligations.CommandsLeaveTheirInputs := by
  refine fun i s t h => ⟨fun hx hr => ⟨exec_sameInput hx hr h, exec_sameOperands hr h⟩, ?_⟩
  rintro rfl
  exact ⟨exec_sameOperands (by decide) h, fun a => by rw [(exec_xfer_output h).1]⟩

/-- Settles O42, from the frame of a transaction that is no `CMD` write and that of `XFER`. -/
theorem outputIsWrittenByCommandsOnly : Obligations.OutputIsWrittenByCommandsOnly := by
  refine ⟨fun s t rest p hr hc h => ?_, fun s t h herr => ?_⟩
  · obtain ⟨-, hl, -, hb⟩ := step_frame_of_not_writesCmd hr hc h
    exact ⟨hl, fun a => by rw [hb]⟩
  · obtain ⟨hb, hl⟩ := exec_xfer_output h
    exact ⟨hl herr, fun a => by rw [hb]⟩

/-- Settles O41: `CSUM` delivers the checksum of its input, and the frames leave its register alone. -/
theorem csumRegisterHasOneWriter : Obligations.CsumRegisterHasOneWriter := by
  refine ⟨fun s t p hp h => ?_, fun i s t hc hr h => exec_csum_of_ne hc hr h, fun s t h => ?_,
    fun s t rest p hr hc h => ?_⟩
  · rw [(exec_delivers (i := .csum) trivial hp).1] at h
    cases h; rfl
  · cases h; rfl
  · obtain ⟨-, -, hcs, -⟩ := step_frame_of_not_writesCmd hr hc h
    exact hcs

/-- Settles O5: the table of 10_state.md R35, entry by entry, is what `State.reset` and `softReset` write. -/
theorem resetStateIsAsTabled : Obligations.ResetStateIsAsTabled :=
  ⟨rfl, rfl, rfl, rfl, rfl, rfl, rfl, rfl, rfl, rfl, read_nil, read_nil, fun _ => rfl⟩

/-! ## The command byte -/

/-- A command byte is its two fields, one above the other (30_encoding.md R60). -/
theorem zeroField_append_opField (c : Byte) : zeroField c ++ opField c = c :=
  (BitVec.extractLsb'_append_extractLsb'_eq_extractLsb' (start₁ := 0) (len₁ := 3) rfl).trans
    BitVec.extractLsb'_eq_self

/-- A byte that decodes to a command is that command's byte. -/
theorem encode_of_decode {c : Byte} {i : Instr} (h : decode c = .ok i) : encode i = c := by
  rw [← zeroField_append_opField c]
  unfold decode decodeOp at h
  split at h
  case isFalse => cases h
  case isTrue hz =>
    rw [hz]
    split at h <;> cases h
    all_goals
      rename_i hop
      rw [hop]
      rfl

/-! ## `STATUS` -/

/-- The flags a command leaves: both clear after `SRST`, and exactly one of the two after any other (10_state.md R22). -/
theorem exec_status {i : Instr} {s t : State} (h : exec i s = .next t) :
    (i = .srst → t.status = clearStatus) ∧ (i ≠ .srst → t.status.done = !t.status.err) ∧
      (t.status.err = false → t.status.errcode = 0#4) := by
  rcases exec_next_cases h with ⟨hi, p, -, -, rfl⟩ | ⟨e, he, rfl⟩ | ⟨rfl, -, rfl⟩ | ⟨rfl, rfl⟩
  · exact ⟨by rintro rfl; exact hi.elim, fun _ => rfl, fun _ => rfl⟩
  · exact ⟨by rintro rfl; simp [RaisesError] at he, fun _ => rfl, by simp⟩
  · exact ⟨by simp, fun _ => rfl, fun _ => rfl⟩
  · exact ⟨fun _ => rfl, by simp, fun _ => rfl⟩

/-- The flags a `CMD` write leaves, by its byte. -/
theorem runCommand_status {c : Byte} {s t : State} (h : runCommand c s = .next t) :
    (c = encode .srst → t.status = clearStatus) ∧ (c ≠ encode .srst → t.status.done = !t.status.err) ∧
      (t.status.err = false → t.status.errcode = 0#4) := by
  rcases runCommand_cases c s with ⟨i, hi, e⟩ | ⟨d, hd, e⟩ <;> rw [e] at h
  · obtain ⟨hsrst, hother, hcode⟩ := exec_status h
    refine ⟨?_, fun hc => hother ?_, hcode⟩
    · rintro rfl
      exact hsrst (by simpa using hi.symm)
    · rintro rfl
      exact hc (encode_of_decode hi).symm
  · cases h
    exact ⟨by rintro rfl; simp at hd, fun _ => rfl, by simp⟩

/-- Command start clears `STATUS` before anything could read it (60_exceptions.md R171). -/
theorem runCommand_ignores_status (c : Byte) (s : State) (st : Status) :
    runCommand c { s with status := st } = runCommand c s := rfl

/-- Settles O39: the flags of `runCommand_status`, the reset state, and the frame of all other transactions. -/
theorem statusDescribesLastCommand : Obligations.StatusDescribesLastCommand := by
  refine ⟨fun s t rest v h => ?_, fun s t rest p hr h => ?_,
    fun s t rest p hr hc h => (step_frame_of_not_writesCmd hr hc h).1,
    fun s st rest v => runCommand_ignores_status _ { s with pending := rest, response := .writeDone } st⟩
  · obtain ⟨hsrst, hother, hcode⟩ := runCommand_status h
    exact ⟨fun hv => by simp [hsrst hv, clearStatus], hother, hcode⟩
  · rw [step_facing, portEdge, if_pos hr] at h
    cases h
    exact ⟨rfl, rfl⟩

/-! ## The operand registers -/

/-- A number names the register that has it, and no other. -/
theorem numberOfReg_of_regOfNumber {n : Word17} {r : RegName} (h : regOfNumber n = some r) : numberOfReg r = n := by
  unfold regOfNumber at h
  split at h <;> cases h
  all_goals
    rename_i hn
    exact BitVec.eq_of_toNat_eq hn.symm

/-- An operand register changes at reset, by `SRST`, or at a host write of one register by its number. -/
theorem step_operands_cases {s t : State} {p : PortInput} {rest : List PortInput}
    (h : step (s.facing p rest) = .next t) :
    p.rst = true ∨ p.issues .srst = true ∨ SameOperands s t ∨
      ∃ r, p.writesRegister (numberOfReg r) = true ∧
        t = writeReg r p.req.wdata { s with pending := rest, response := .writeDone } := by
  rcases step_facing_cases s p rest with
    ⟨hr, -⟩ | ⟨hc, e⟩ | ⟨-, -, r, k, e⟩ | ⟨hr, -, hv, hw, hs, r, -, hn, e⟩ | ⟨-, -, i, b, -, e⟩
  · exact .inl hr
  · rw [e] at h
    rcases runCommand_cases (p.req.wdata.setWidth 8) { s with pending := rest, response := .writeDone } with
      ⟨i, hi, e⟩ | ⟨-, -, e⟩ <;> rw [e] at h
    · by_cases hsrst : i = .srst
      · subst hsrst
        exact .inr (.inl (issues_iff.mpr ⟨hc, (encode_of_decode hi).symm⟩))
      · obtain ⟨hid, hseq, hsrc, hdst, hmac, hmac'⟩ := exec_sameOperands hsrst h
        exact .inr (.inr (.inl ⟨hid, hseq, hsrc, hdst, hmac, hmac'⟩))
    · cases h; exact .inr (.inr (.inl ⟨rfl, rfl, rfl, rfl, rfl, rfl⟩))
  · rw [e] at h; cases h; exact .inr (.inr (.inl ⟨rfl, rfl, rfl, rfl, rfl, rfl⟩))
  · rw [e] at h; cases h
    exact .inr (.inr (.inr ⟨r, writesRegister_iff.mpr ⟨hr, hv, hw, hs, (numberOfReg_of_regOfNumber hn).symm⟩, rfl⟩))
  · rw [e] at h; cases h; exact .inr (.inr (.inl ⟨rfl, rfl, rfl, rfl, rfl, rfl⟩))

/-- If a field `f` of the state is one of the operand registers, and `reg` is the one register whose write changes it, then
a step that changes `f` is a host write of `reg`, or `SRST`, or reset. -/
theorem writesRegister_of_operand_changed {α : Type} {f : State → α} {reg : RegName}
    (hf : ∀ {s t : State}, SameOperands s t → f t = f s)
    (hw : ∀ r v s rest, r ≠ reg → f (writeReg r v { s with pending := rest, response := .writeDone }) = f s)
    {s t : State} {p : PortInput} {rest : List PortInput} (h : step (s.facing p rest) = .next t) (hne : f t ≠ f s) :
    p.writesRegister (numberOfReg reg) = true ∨ p.issues .srst = true ∨ p.rst = true := by
  rcases step_operands_cases h with hr | hi | hso | ⟨r, hp, rfl⟩
  · exact .inr (.inr hr)
  · exact .inr (.inl hi)
  · exact absurd (hf hso) hne
  · by_cases hreg : r = reg
    · exact .inl (hreg ▸ hp)
    · exact absurd (hw _ _ _ _ hreg) hne

/-! The write of another register leaves an operand register alone. -/

section
variable {r : RegName} (v : Word48) (s : State)

theorem writeReg_icmpId (hr : r ≠ .icmpId) : (writeReg r v s).icmpId = s.icmpId := by
  cases r with | icmpId => exact absurd rfl hr | _ => rfl

theorem writeReg_icmpSeq (hr : r ≠ .icmpSeq) : (writeReg r v s).icmpSeq = s.icmpSeq := by
  cases r with | icmpSeq => exact absurd rfl hr | _ => rfl

theorem writeReg_ipSrc (hr : r ≠ .ipSrc) : (writeReg r v s).ipSrc = s.ipSrc := by
  cases r with | ipSrc => exact absurd rfl hr | _ => rfl

theorem writeReg_ipDst (hr : r ≠ .ipDst) : (writeReg r v s).ipDst = s.ipDst := by
  cases r with | ipDst => exact absurd rfl hr | _ => rfl

theorem writeReg_ethDst (hr : r ≠ .ethDst) : (writeReg r v s).ethDst = s.ethDst := by
  cases r with | ethDst => exact absurd rfl hr | _ => rfl

theorem writeReg_ethSrc (hr : r ≠ .ethSrc) : (writeReg r v s).ethSrc = s.ethSrc := by
  cases r with | ethSrc => exact absurd rfl hr | _ => rfl

end

/-- Settles O40: each operand register is changed by the write of its own number only. -/
theorem operandRegistersAreTheHosts : Obligations.OperandRegistersAreTheHosts := fun _ _ _ _ h =>
  ⟨writesRegister_of_operand_changed (reg := .icmpId) (·.icmpId) (fun _ _ _ _ => writeReg_icmpId _ _) h,
    writesRegister_of_operand_changed (reg := .icmpSeq) (·.icmpSeq) (fun _ _ _ _ => writeReg_icmpSeq _ _) h,
    writesRegister_of_operand_changed (reg := .ipSrc) (·.ipSrc) (fun _ _ _ _ => writeReg_ipSrc _ _) h,
    writesRegister_of_operand_changed (reg := .ipDst) (·.ipDst) (fun _ _ _ _ => writeReg_ipDst _ _) h,
    writesRegister_of_operand_changed (reg := .ethDst) (·.ethDst) (fun _ _ _ _ => writeReg_ethDst _ _) h,
    writesRegister_of_operand_changed (reg := .ethSrc) (·.ethSrc) (fun _ _ _ _ => writeReg_ethSrc _ _) h⟩

end Sys2Proof.Machine
end

section
/-!
PROOFS. The request port (20_memory.md): registers as bytes (R41), what each access to the register space and to the two
buffers does (R43 to R56), reading back what was written (R51), and running a command again (R54).
-/

namespace Sys2Proof.Machine

/-! ## Registers as bytes -/

/-- A concatenation as a number: the high part is scaled by the width of the low part. -/
theorem append_toNat {w k : Nat} (x : BitVec w) (y : BitVec k) : (x ++ y).toNat = x.toNat * 2 ^ k + y.toNat := by
  rw [BitVec.toNat_append, ← Nat.shiftLeft_add_eq_or_of_lt y.isLt, Nat.shiftLeft_eq]

/-- The lowest byte of a value is the byte appended last. -/
theorem extractLsb'_append_byte {w : Nat} (x : BitVec w) (b : Byte) : (x ++ b).extractLsb' 0 8 = b :=
  BitVec.extractLsb'_append_eq_right

/-- Every byte above the lowest is a byte of what the lowest was appended to. -/
theorem extractLsb'_append_byte_of_le {w k : Nat} (hk : 8 ≤ k) (x : BitVec w) (b : Byte) :
    (x ++ b).extractLsb' k 8 = x.extractLsb' (k - 8) 8 :=
  BitVec.extractLsb'_append_eq_of_le hk

/-- `be16` takes apart what the concatenation of bytes puts together (20_memory.md R40, R41). -/
theorem be16_append (a0 a1 : Byte) : be16 (a0 ++ a1) = [a0, a1] := by
  simp [be16, extractLsb'_append_byte, extractLsb'_append_byte_of_le, BitVec.extractLsb'_eq_self]

theorem be32_append (a0 a1 a2 a3 : Byte) : be32 (a0 ++ a1 ++ a2 ++ a3) = [a0, a1, a2, a3] := by
  simp [be32, extractLsb'_append_byte, extractLsb'_append_byte_of_le, BitVec.extractLsb'_eq_self]

theorem be48_append (a0 a1 a2 a3 a4 a5 : Byte) :
    be48 (a0 ++ a1 ++ a2 ++ a3 ++ a4 ++ a5) = [a0, a1, a2, a3, a4, a5] := by
  simp [be48, extractLsb'_append_byte, extractLsb'_append_byte_of_le, BitVec.extractLsb'_eq_self]

/-- A value is the number it has, whatever expression gives that number. -/
theorem ofNat_eq_of_toNat {w n : Nat} {x : BitVec w} (h : x.toNat = n) : BitVec.ofNat w n = x := by
  rw [← h, BitVec.ofNat_toNat, BitVec.setWidth_eq]

/-- Settles O16: the number of a byte array (20_memory.md R41) is the number of the concatenated bytes. -/
theorem registersAreBigEndian : Obligations.RegistersAreBigEndian := by
  refine ⟨fun a0 a1 => ?_, fun a0 a1 a2 a3 => ?_, fun a0 a1 a2 a3 a4 a5 => ?_⟩
  · rw [ofNat_eq_of_toNat (x := a0 ++ a1) (by simp only [append_toNat]; omega), be16_append]
  · rw [ofNat_eq_of_toNat (x := a0 ++ a1 ++ a2 ++ a3) (by simp only [append_toNat]; omega), be32_append]
  · rw [ofNat_eq_of_toNat (x := a0 ++ a1 ++ a2 ++ a3 ++ a4 ++ a5) (by simp only [append_toNat]; omega),
      be48_append]

/-! ## The register space -/

/-- The byte of `STATUS` as a number: each field at its place (10_state.md R21). -/
theorem statusByte_toNat (st : Status) :
    (statusByte st).toNat = st.errcode.toNat * 16 + st.err.toNat * 2 + st.done.toNat := by
  simp only [statusByte, append_toNat, BitVec.toNat_ofNat, BitVec.toNat_ofBool]
  omega

theorem readRegNumber_reserved {n : Word17} (h : 0xB ≤ n.toNat) (s : State) : readRegNumber n s = 0#48 := by
  rw [readRegNumber, regOfNumber_reserved h]

/-- Settles O7: the step answers `readRegNumber`, which extends the named register with zeros. -/
theorem registerReadAnswers : Obligations.RegisterReadAnswers := by
  intro s rest n w
  refine ⟨readRegNumber n s, step_regRead s rest n w, ?_, ?status, ?_, ?_, ?_, ?_, ?_, ?_, ?_, ?_, ?_, ?reserved⟩
  case status => rintro rfl; exact (BitVec.toNat_setWidth_of_le (by decide)).trans (statusByte_toNat s.status)
  case reserved => intro h; rw [readRegNumber_reserved h]; rfl
  all_goals rintro rfl; rfl

/-- A write of a read-only or reserved number is ignored (20_memory.md R44). -/
theorem regWrite_ignored {n : Word17} (h : n = 0x1#17 ∨ n = 0x3#17 ∨ n = 0x4#17 ∨ 0xB ≤ n.toNat) (v : Word48)
    (s : State) : regWrite n v s = .next s := by
  rcases h with rfl | rfl | rfl | h
  · rfl
  · rfl
  · rfl
  · rw [regWrite, regOfNumber_reserved h]

/-- Settles O8: `regWrite` at each number. -/
theorem registerWriteStoresLowBits : Obligations.RegisterWriteStoresLowBits := by
  intro s rest v
  refine ⟨⟨v.setWidth 16, BitVec.toNat_setWidth .., rfl, rfl, rfl⟩, ⟨v.setWidth 32, BitVec.toNat_setWidth .., rfl, rfl⟩,
    rfl, rfl, ⟨v.setWidth 8, BitVec.toNat_setWidth .., step_cmdWrite s rest v⟩, fun n hn => ?_⟩
  rw [step_regWrite, regWrite_ignored hn]

/-! ## The buffers -/

/-- Storing one byte sets it, and no other index reads differently. -/
theorem read_store_byte (m : Memory) (i : Nat) (b : Byte) (a : Nat) :
    Memory.read (m.store i [b]) a = if a = i then some b else m.read a := by
  rw [read_store]
  by_cases h : a = i
  · subst h; simp
  · rw [if_neg (by simp only [List.length_singleton]; omega), if_neg h]

/-- Settles O9: inside `IN` the step stores one byte, outside nothing. -/
theorem inputByteWriteSetsOneByte : Obligations.InputByteWriteSetsOneByte := by
  refine fun s rest i v => ⟨fun hi => ?_, fun hi => ?_⟩
  · refine ⟨s.inBuf.store i.toNat [v.setWidth 8], v.setWidth 8, ?_, BitVec.toNat_setWidth .., ?_, fun a ha => ?_⟩
    · rw [step_inWrite, writeIn_inside hi]
    · rw [read_store_byte, if_pos rfl]
    · rw [read_store_byte, if_neg ha]
  · rw [step_inWrite, writeIn_outside hi]

/-- Settles O10: a written byte, an unwritten byte and an index outside `IN` are the cases of `readIn`. -/
theorem inputByteReadAnswers : Obligations.InputByteReadAnswers := by
  intro s rest i w
  refine ⟨fun b hi hb => ⟨b.setWidth 48, BitVec.toNat_setWidth_of_le (by decide), ?written⟩,
    fun hi hb => ⟨(Config.freeByte s.draws).setWidth 48, s.draws + 1, ?unwritten⟩, fun hi => ?outside⟩
  case written => exact congrArg _ (readIn_written (s := { s with pending := rest }) hi hb)
  case unwritten => exact congrArg _ (readIn_unwritten (s := { s with pending := rest }) hi hb)
  case outside => exact congrArg _ (readIn_outside (s := { s with pending := rest }) hi)

/-- Settles O11: a byte of the result and an index beyond it are the cases of `readOut`. -/
theorem outputIsReadOnly : Obligations.OutputIsReadOnly := by
  intro s rest i w
  refine ⟨step_outWrite s rest i w, fun b hi hb => ⟨b.setWidth 48, BitVec.toNat_setWidth_of_le (by decide), ?result⟩,
    fun hi => ⟨Config.freeWord s.draws, s.draws + 1, ?beyond⟩⟩
  case result => exact congrArg _ (readOut_result (s := { s with pending := rest }) hi hb)
  case beyond => exact congrArg _ (readOut_beyond (s := { s with pending := rest }) hi)

/-- Settles O12: with `req_space` = 3 the transaction is `reservedRead` or `reservedWrite`, and neither touches the core. -/
theorem reservedSpaceDoesNothing : Obligations.ReservedSpaceDoesNothing :=
  fun _ _ _ _ => ⟨rfl, rfl⟩

/-! ## Reading back -/

theorem run_two_of_next {s t u : State} (h : step s = .next t) (h' : step t = .next u) :
    Sys2Proof.core.run 2 s = .next u := by
  rw [run_succ_of_next h, run_succ_of_next h']; rfl

/-- Settles O13: what the write of an `IN` byte stores (O9) is what the read answers (O10), and `ETH_DST` is as wide as the
data lines. -/
theorem readReturnsLastWrite : Obligations.ReadReturnsLastWrite := by
  refine fun s rest i v w => ⟨fun hi => ?_, ?_⟩
  · obtain ⟨m, b, hwrite, hb, hread, -⟩ := (inputByteWriteSetsOneByte s (inReadInput i w :: rest) i v).1 hi
    obtain ⟨d, hd, hanswer⟩ :=
      (inputByteReadAnswers { s with response := .writeDone, inBuf := m } rest i w).1 b hi hread
    exact ⟨_, d, hd.trans hb, run_two_of_next hwrite hanswer, rfl, rfl⟩
  · exact ⟨_, run_two_of_next (step_regWrite s (regReadInput 0x9#17 w :: rest) 0x9#17 v)
      (step_regRead { s with response := .writeDone, ethDst := v } rest 0x9#17 w), rfl, rfl⟩

/-! ## Running a command again -/

/-- A command that delivers leaves its inputs, so it delivers the same result again. -/
theorem exec_deliver_again {i : Instr} {s t : State} {p : List Byte} (hi : ReadsInput i s) (hp : InputIs s p)
    (ht : t = deliver (resultOf i s p) { s with csum := csumAfter i s p }) : exec i t = .next t := by
  have hi' : ReadsInput i t := hi.congr (by simp [ht])
  have hp' : InputIs t p := hp.congr (by simp [ht]) (by simp [ht])
  have hsame : SameOperands s t := by subst ht; exact ⟨rfl, rfl, rfl, rfl, rfl, rfl⟩
  have hcsum : csumAfter i t p = csumAfter i s p := by
    by_cases hc : i = .csum
    · subst hc; rfl
    · rw [csumAfter_of_ne hc, ht]; rfl
  rw [(exec_delivers hi' hp').1, resultOf_congr hsame, hcsum, ht]; rfl

/-- The one cause of an error of `XFER` (60_exceptions.md R170). -/
theorem RaisesError.lt_outLen {e : CommandError} {s : State} (h : RaisesError .xfer e s) : 65535 < s.outLen.toNat := by
  rcases h with ⟨h, -⟩ | ⟨h, -⟩ | ⟨-, -, h⟩
  · cases h
  · cases h
  · exact h

/-- A command that raises over the length of its input raises again: an error leaves `IN_LEN` (60_exceptions.md R176). -/
theorem exec_raise_again {i : Instr} {e : CommandError} {s : State} (hx : i ≠ .xfer) (he : RaisesError i e s) :
    exec i (raise e s) = .next (raise e s) :=
  exec_raises (he.congr (fun _ => rfl) fun h => absurd h hx)

/-- A copy leaves the result, and copying it again stores what is already there. -/
theorem copyResult_again (s : State) : copyResult (complete (copyResult s)) = complete (copyResult s) :=
  congrArg (fun m => { complete (copyResult s) with inBuf := m })
    (copyFirst_copyFirst s.outBuf s.inBuf s.outLen.toNat)

theorem exec_xfer_again {s : State} (hn : s.outLen.toNat ≤ 65535) :
    exec .xfer (complete (copyResult s)) = .next (complete (copyResult s)) :=
  (execXfer_of_le (s := complete (copyResult s)) hn).trans (by rw [copyResult_again]; rfl)

/-- Settles O45: delivering, raising, copying and resetting, each done a second time. -/
theorem repeatedCommandChangesNothing : Obligations.RepeatedCommandChangesNothing := by
  intro i s t hx h
  rcases exec_next_cases h with ⟨hi, p, hp, -, rfl⟩ | ⟨e, he, rfl⟩ | ⟨rfl, hn, rfl⟩ | ⟨rfl, rfl⟩
  · exact exec_deliver_again hi hp rfl
  · refine exec_raise_again ?_ he
    rintro rfl
    exact absurd (hx rfl) (Nat.not_le_of_lt he.lt_outLen)
  · exact exec_xfer_again hn
  · rfl

end Sys2Proof.Machine
end

section
/-!
PROOFS. Encoding (30_encoding.md): the command byte and what its write does (R60 to R63), and host programs, line by line
(R67) and pseudo-operation by pseudo-operation (R68).
-/

namespace Sys2Proof.Machine

/-! ## Decoding -/

/-- A command has exactly one byte (30_encoding.md R62). -/
theorem decode_eq_ok_iff {c : Byte} {i : Instr} : decode c = .ok i ↔ c = encode i :=
  ⟨fun h => (encode_of_decode h).symm, fun h => h ▸ decode_encode i⟩

/-- Settles O1: the seven bytes of the table are the seven values of `encode`. -/
theorem commandBytesDecode : Obligations.CommandBytesDecode := fun _ =>
  ⟨decode_eq_ok_iff (i := .srst), decode_eq_ok_iff (i := .csum), decode_eq_ok_iff (i := .icmp),
    decode_eq_ok_iff (i := .ipv4), decode_eq_ok_iff (i := .eth), decode_eq_ok_iff (i := .xfer),
    decode_eq_ok_iff (i := .ping)⟩

/-- The statement about a command's byte (Laws/PerInstr.lean), for all commands at once. -/
theorem encoding_statement (i : Instr) : Laws.Encoding.Statement i := by
  cases i with
  | srst => exact Laws.Encoding.srst
  | csum => exact Laws.Encoding.csum
  | icmp => exact Laws.Encoding.icmp
  | ipv4 => exact Laws.Encoding.ipv4
  | eth => exact Laws.Encoding.eth
  | xfer => exact Laws.Encoding.xfer
  | ping => exact Laws.Encoding.ping

/-- Settles O2: the statement about a command's byte, and a byte that decodes is such a byte. -/
theorem decodeAndEncodeAgree : Obligations.DecodeAndEncodeAgree := by
  refine ⟨fun i => (encoding_statement i).2, fun c i h => ?_⟩
  obtain rfl := decode_eq_ok_iff.mp h
  exact ⟨rfl, (encoding_statement i).1⟩

/-! ## The write of `CMD` -/

theorem runCommand_of_decode {c : Byte} {i : Instr} (h : decode c = .ok i) (s : State) :
    runCommand c s = exec i (commandStart s) := by
  rw [runCommand, h]

/-- Settles O3: the write runs the byte in the low bits of the data, and that byte is a command. -/
theorem stepRunsDecodedCommand : Obligations.StepRunsDecodedCommand := by
  intro s rest v i h
  rw [step_cmdWrite, runCommand_of_decode h]
  rfl

theorem encode_toNat_lt (i : Instr) : (encode i).toNat < 0x07 := by cases i <;> decide

/-- A byte beyond those of the table names no command (30_encoding.md R63). -/
theorem runCommand_illegal {c : Byte} (h : 0x07 ≤ c.toNat) (s : State) :
    runCommand c s = .next (raise .illegalCmd (commandStart s)) := by
  rcases runCommand_cases c s with ⟨i, hi, -⟩ | ⟨-, -, e⟩
  · rw [decode_eq_ok_iff.mp hi] at h
    exact absurd h (Nat.not_le_of_lt (encode_toNat_lt i))
  · exact e

/-- Settles O4: such a byte raises `IllegalCmd` from command start, and `regWrite` ignores the other numbers. -/
theorem illegalCommandFailsClosed : Obligations.IllegalCommandFailsClosed := by
  refine ⟨fun s rest v hv => ?_, fun s rest n v hn => ?_⟩
  · rw [step_cmdWrite, runCommand_illegal hv]
    rfl
  · rw [step_regWrite, regWrite_ignored hn]

/-! ## Lines of a host program -/

/-- The port inputs of a line. -/
def HostLine.input (l : HostLine) : PortInput := presenting (lineRequest l)

/-- What is narrower than the data lines comes back from them unchanged. -/
theorem setWidth_dataLines {w : Nat} (hw : w ≤ 48) (x : BitVec w) : (x.setWidth 48).setWidth w = x := by
  rw [BitVec.setWidth_setWidth_of_le x hw, BitVec.setWidth_eq]

/-- `WR <reg>, <v>` for a register other than `CMD`. -/
theorem step_wr {r : RegName} (hr : r ≠ .cmd) (v : Word48) (s : State) (rest : List PortInput) :
    step (s.facing (HostLine.wr r v).input rest) =
      .next (writeReg r v { s with pending := rest, response := .writeDone }) := by
  refine (step_regWrite s rest (numberOfReg r) v).trans ?_
  rw [regWrite, regOfNumber_numberOfReg]
  cases r with
  | cmd => exact absurd rfl hr
  | _ => rfl

/-- `WRIN <i>, <b>` inside the buffer. -/
theorem step_wrin {i : Word17} (hi : i.toNat ≤ 65535) (b : Byte) (s : State) (rest : List PortInput) :
    step (s.facing (HostLine.wrin i b).input rest) =
      .next { s with pending := rest, response := .writeDone, inBuf := s.inBuf.store i.toNat [b] } := by
  refine (step_inWrite s rest i (b.setWidth 48)).trans ?_
  rw [writeIn_inside hi, setWidth_dataLines (by decide)]

/-- Two register writes one after the other. -/
theorem run_two_wr {r r' : RegName} (hr : r ≠ .cmd) (hr' : r' ≠ .cmd) (v v' : Word48) (s : State)
    (rest : List PortInput) :
    Sys2Proof.core.run 2 { s with pending := lineInputs [.wr r v, .wr r' v'] ++ rest } =
      .next (writeReg r' v' (writeReg r v { s with pending := rest, response := .writeDone })) := by
  refine run_two_of_next (step_wr hr v s (HostLine.input (.wr r' v') :: rest)) ?_
  have h := step_wr hr' v' (writeReg r v { s with response := .writeDone }) rest
  cases r <;> exact h

/-! ## The pseudo-operations on operand registers -/

/-- Settles O15: two register writes each, of values no wider than the data lines. -/
theorem addressPseudoOpsSetRegisters : Obligations.AddressPseudoOpsSetRegisters := by
  refine ⟨fun s rest a b c d e f g h => ?setIp, fun s rest d0 d1 d2 d3 d4 d5 s0 s1 s2 s3 s4 s5 => ?setMac,
    fun s rest id seq => ?setEcho⟩
  case setIp =>
    refine ⟨_, run_two_wr (by decide) (by decide) _ _ s rest, rfl, ?_, ?_⟩
    all_goals
      simp only [writeReg, setWidth_dataLines (w := 32) (by decide), append_toNat]
      omega
  case setMac =>
    exact ⟨_, run_two_wr (by decide) (by decide) _ _ s rest, rfl, be48_append .., be48_append ..⟩
  case setEcho =>
    refine (run_two_wr (by decide) (by decide) _ _ s rest).trans ?_
    simp only [writeReg, setWidth_dataLines (w := 16) (by decide)]

/-! ## `LOAD` -/

/-- Storing a byte and then the others behind it reads as storing them all. -/
theorem read_store_cons (m : Memory) (base : Nat) (b : Byte) (bs : List Byte) (a : Nat) :
    Memory.read ((m.store base [b]).store (base + 1) bs) a = Memory.read (m.store base (b :: bs)) a := by
  rw [read_store, read_store_byte, read_store, List.length_cons]
  rcases Nat.lt_trichotomy a base with h | rfl | h
  · rw [if_neg (by omega), if_neg (by omega), if_neg (by omega)]
  · rw [if_neg (by omega), if_pos rfl, if_pos (by omega), Nat.sub_self, List.getElem?_cons_zero]
  · have hd : a - base = a - (base + 1) + 1 := by omega
    rw [if_neg (by omega : a ≠ base), hd, List.getElem?_cons_succ]
    exact if_congr (by omega) rfl rfl

/-- The `WRIN` lines of a list of bytes that fits `IN` store it, byte by byte, and do nothing else. -/
theorem run_writeLines (p : List Byte) (base : Nat) (hp : base + p.length ≤ 65536) (s : State) (rest : List PortInput) :
    ∃ (r : Response) (m : Memory),
      Sys2Proof.core.run p.length { s with pending := lineInputs (writeLines base p) ++ rest } =
        .next { s with pending := rest, response := r, inBuf := m } ∧
      ∀ a, Memory.read m a = Memory.read (s.inBuf.store base p) a := by
  induction p generalizing base s with
  | nil => exact ⟨s.response, s.inBuf, rfl, fun a => by rw [read_store, if_neg (by simp)]⟩
  | cons b bs ih =>
    rw [List.length_cons] at hp
    have hbase : (BitVec.ofNat 17 base).toNat = base := by
      rw [BitVec.toNat_ofNat, Nat.mod_eq_of_lt (by omega)]
    have hstep := step_wrin (i := BitVec.ofNat 17 base) (by omega) b s (lineInputs (writeLines (base + 1) bs) ++ rest)
    rw [hbase] at hstep
    obtain ⟨r, m, hrun, hread⟩ :=
      ih (base + 1) (by omega) { s with response := .writeDone, inBuf := s.inBuf.store base [b] }
    exact ⟨r, m, (run_succ_of_next hstep bs.length).trans hrun, fun a => (hread a).trans (read_store_cons ..)⟩

/-- What the host presents for `LOAD`: the `WRIN` lines, then the write of `IN_LEN`. -/
theorem lineInputs_load (p : List Byte) (rest : List PortInput) :
    lineInputs (expand (.load p)) ++ rest = lineInputs (writeLines 0 p) ++
      (HostLine.input (.wr .inLen (BitVec.ofNat 48 p.length)) :: rest) := by
  rw [expand, lineInputs, List.map_append, List.append_assoc]
  rfl

/-- `LOAD` stores its bytes from index 0 and writes their number to `IN_LEN`. -/
theorem run_load (p : List Byte) (hp : p.length ≤ 65535) (s : State) (rest : List PortInput) : ∃ m : Memory,
    Sys2Proof.core.run (p.length + 1) { s with pending := lineInputs (expand (.load p)) ++ rest } =
      .next { s with pending := rest, response := .writeDone, inBuf := m, inLen := BitVec.ofNat 16 p.length } ∧
    ∀ a, Memory.read m a = Memory.read (s.inBuf.store 0 p) a := by
  obtain ⟨r, m, hrun, hread⟩ := run_writeLines p 0 (by omega) s
    (HostLine.input (.wr .inLen (BitVec.ofNat 48 p.length)) :: rest)
  have hlast := step_wr (r := .inLen) (by decide) (BitVec.ofNat 48 p.length) { s with response := r, inBuf := m } rest
  rw [writeReg, BitVec.setWidth_ofNat_of_le (by decide)] at hlast
  rw [lineInputs_load]
  exact ⟨m, (run_add_of_next hrun 1).trans (run_succ_of_next hlast 0), hread⟩

/-- Settles O14: the input is what `run_load` stores, and nothing else of the core differs after it. -/
theorem loadMakesTheInput : Obligations.LoadMakesTheInput := by
  intro s rest p hp
  obtain ⟨m, hrun, hread⟩ := run_load p hp s rest
  have hlen : p.length = (BitVec.ofNat 16 p.length).toNat := by
    rw [BitVec.toNat_ofNat, Nat.mod_eq_of_lt (by omega)]
  refine ⟨_, hrun, rfl, ⟨hlen, fun i hi => ?stored⟩, fun a ha => ?kept, ⟨rfl, rfl, rfl, rfl, rfl, rfl⟩,
    ⟨rfl, fun _ => rfl⟩, rfl, rfl⟩
  case stored => rw [hread, read_store, if_pos (by omega), Nat.sub_zero]
  case kept => rw [hread, read_store, if_neg (by omega)]

end Sys2Proof.Machine
end

section
/-!
PROOFS. The checksum (40_checksum.md). The accumulator is a function of the plain word sum alone, its closed form (R84):
when the checksum is 0xFFFF or 0x0000, and what a field that carries it does, are questions about that sum.
-/

namespace Sys2Proof.Machine

/-! ## The accumulator and the checksum as numbers -/

/-- The accumulator is the closed form of the plain word sum (40_checksum.md R84). -/
theorem ocSum_toNat (b : List Byte) : (ocSum b).toNat = closedFold (plainSum b) := by
  rw [ocSum, foldl_ocAdd_toNat _ 0 _ rfl, Nat.zero_add, plainSum]

/-- The checksum complements the accumulator (40_checksum.md R80). -/
theorem csum16_toNat (b : List Byte) : (csum16 b).toNat = 0xFFFF - (ocSum b).toNat := BitVec.toNat_not

theorem csum16_toNat_eq (b : List Byte) : (csum16 b).toNat = 0xFFFF - closedFold (plainSum b) := by
  rw [csum16_toNat, ocSum_toNat]

theorem csum16_eq_max_iff (b : List Byte) : csum16 b = 0xFFFF#16 ↔ plainSum b = 0 := by
  rw [← closedFold_eq_zero, ← BitVec.toNat_inj, csum16_toNat_eq, BitVec.toNat_ofNat]
  have := closedFold_le (plainSum b)
  omega

theorem csum16_eq_zero_iff (b : List Byte) : csum16 b = 0x0000#16 ↔ 0 < plainSum b ∧ plainSum b % 65535 = 0 := by
  rw [← closedFold_eq_max, ← BitVec.toNat_inj, csum16_toNat_eq, BitVec.toNat_ofNat]
  have := closedFold_le (plainSum b)
  omega

/-! ## Words and the zero pad (R80 to R82) -/

/-- A zero byte in the place of the pad is the pad (40_checksum.md R81). -/
theorem csum16_append_zero {b : List Byte} (h : b.length % 2 = 1) : csum16 (b ++ [0x00#8]) = csum16 b := by
  have hlen : (b ++ [0x00#8]).length % 2 = 0 := by rw [List.length_append, List.length_singleton]; omega
  rw [csum16, csum16, ocSum, ocSum, pad_even hlen, pad_odd h]

/-- The last word of an even-length sequence is added last. -/
theorem ocSum_append_pair {b : List Byte} (h : b.length % 2 = 0) (hi lo : Byte) :
    ocSum (b ++ [hi, lo]) = ocAdd (ocSum b) (word hi lo) := by
  have hpad : pad [hi, lo] = [hi, lo] := pad_even (by simp)
  have hwords : wordsOf [hi, lo] = [word hi lo] := rfl
  rw [ocSum, ocSum, pad_append h, pad_even h, hpad, wordsOf_append h, hwords, List.foldl_append, List.foldl_cons,
    List.foldl_nil]

/-- Settles O17: the pad, the last word, and the empty sequence. -/
theorem checksumSumsBigEndianWords : Obligations.ChecksumSumsBigEndianWords := by
  refine ⟨fun b h => (csum16_append_zero h).symm, fun b hi lo h a ha => ?_, rfl⟩
  have hacc : a = (ocSum b).toNat := by
    have := (ocSum b).isLt
    rw [ha, csum16_toNat]
    omega
  rw [csum16_toNat, ocSum_append_pair h, ocAdd_toNat, word_toNat, hacc]

/-! ## Deferred folding (R83) -/

/-- A sum that fits 16 bits is its own closed form. -/
theorem closedFold_of_le {s : Nat} (h : s ≤ 0xFFFF) : closedFold s = s := by
  unfold closedFold
  split <;> omega

/-- A fold step keeps the residue modulo 65535 and reaches zero from nowhere, so it keeps the closed form. -/
theorem closedFold_foldStep {s : Nat} (h : s > 0xFFFF) : closedFold (s % 0x10000 + s / 0x10000) = closedFold s := by
  unfold closedFold
  rw [if_neg (by omega), if_neg (by omega)]
  omega

/-- Each fold step lowers the sum, so as many steps as the sum counts reach the closed form. -/
theorem foldSteps_eq_closedFold {fuel s : Nat} (h : s ≤ fuel) : foldSteps fuel s = closedFold s := by
  induction fuel generalizing s with
  | zero => rw [foldSteps, closedFold_of_le (by omega)]
  | succ fuel ih =>
    rw [foldSteps]
    by_cases hs : s > 0xFFFF
    · rw [if_pos hs, ih (by omega), closedFold_foldStep hs]
    · rw [if_neg hs, closedFold_of_le (by omega)]

theorem deferredFold_eq_closedFold (s : Nat) : deferredFold s = closedFold s := foldSteps_eq_closedFold (Nat.le_refl s)

/-- The order of the words does not matter: it does not matter to their plain sum. -/
theorem foldl_ocAdd_perm {ws ws' : List Word16} (h : ws.Perm ws') : ws.foldl ocAdd 0#16 = ws'.foldl ocAdd 0#16 := by
  apply BitVec.eq_of_toNat_eq
  rw [foldl_ocAdd_toNat ws 0 _ rfl, foldl_ocAdd_toNat ws' 0 _ rfl, (h.map _).sum_eq]

/-- Settles O18: both ways of folding give the closed form of the plain sum. -/
theorem deferredFoldingAgrees : Obligations.DeferredFoldingAgrees := by
  refine ⟨fun b => ?_, fun _ _ h => foldl_ocAdd_perm h, rfl, ?_⟩
  · rw [ocSum_toNat, deferredFold_eq_closedFold]
  · rw [deferredFold_eq_closedFold]; rfl

/-! ## When the checksum is 0xFFFF (R84) -/

theorem plainSum_singleton (x : Byte) : plainSum [x] = x.toNat * 256 := by
  simp [plainSum, pad, wordsOf, word_toNat]

theorem plainSum_cons_cons (hi lo : Byte) (b : List Byte) :
    plainSum (hi :: lo :: b) = hi.toNat * 256 + lo.toNat + plainSum b := by
  rw [← plainSum_pair]
  exact plainSum_append (b := [hi, lo]) (by simp) b

/-- A sum of words is zero only if every byte of them is. -/
theorem plainSum_eq_zero_iff (b : List Byte) : plainSum b = 0 ↔ ∀ x ∈ b, x = 0x00#8 := by
  induction b using wordsOf.induct with
  | case1 hi lo rest ih =>
    rw [plainSum_cons_cons, List.forall_mem_cons, List.forall_mem_cons, ← ih, ← BitVec.toNat_inj,
      ← BitVec.toNat_inj, BitVec.toNat_ofNat]
    omega
  | case2 x =>
    rw [plainSum_singleton, List.forall_mem_singleton, ← BitVec.toNat_inj, BitVec.toNat_ofNat]
    omega
  | case3 => simp

/-- Settles O19: the checksum as a number, and when the plain sum folds to 0 and when to 0xFFFF. -/
theorem checksumClosedForm : Obligations.ChecksumClosedForm := fun b =>
  ⟨csum16_toNat_eq b, (csum16_eq_max_iff b).trans (plainSum_eq_zero_iff b), csum16_eq_zero_iff b⟩

/-! ## A sequence that carries its own checksum (R86) -/

/-- Adding its own checksum to a plain sum makes it a positive multiple of 65535. -/
theorem csum16_eq_zero_of_plainSum {h z : List Byte} (hs : plainSum h = plainSum z + (csum16 z).toNat) :
    csum16 h = 0x0000#16 := by
  rw [csum16_eq_zero_iff, hs, csum16_toNat_eq, closedFold]
  split <;> omega

/-- A two-byte field at an even index adds its word to the plain sum of the rest. -/
theorem plainSum_field {front : List Byte} (h : front.length % 2 = 0) (hi lo : Byte) (rest : List Byte) :
    plainSum (front ++ hi :: lo :: rest) = plainSum (front ++ 0x00#8 :: 0x00#8 :: rest) + (word hi lo).toNat := by
  rw [plainSum_append h, plainSum_append h, plainSum_cons_cons, plainSum_cons_cons, word_toNat, BitVec.toNat_ofNat]
  omega

/-- A checksum filled into a zeroed field at an even index verifies (40_checksum.md R86). -/
theorem csum16_field_eq_zero {front : List Byte} (h : front.length % 2 = 0) {hi lo : Byte} {rest : List Byte}
    (hc : [hi, lo] = csumBytes (front ++ 0x00#8 :: 0x00#8 :: rest)) :
    csum16 (front ++ hi :: lo :: rest) = 0x0000#16 := by
  apply csum16_eq_zero_of_plainSum (z := front ++ 0x00#8 :: 0x00#8 :: rest)
  rw [csumBytes, be16] at hc
  injection hc with hhi hc
  injection hc with hlo
  rw [plainSum_field h, hhi, hlo, word_extract]

/-- A list in its parts around two neighbouring indices. -/
theorem exists_eq_append_pair {α : Type} {l : List α} {j : Nat} (hj : j + 1 < l.length) :
    ∃ (front : List α) (x y : α) (rest : List α), l = front ++ x :: y :: rest ∧ front.length = j := by
  refine ⟨l.take j, l[j], l[j + 1], l.drop (j + 2), ?_, List.length_take_of_le (by omega)⟩
  rw [← List.drop_eq_getElem_cons hj, ← List.drop_eq_getElem_cons (by omega), List.take_append_drop]

/-- Settles O20: the sequence in its parts is a front of even length, the field, and the rest. -/
theorem checksumSelfVerifies : Obligations.ChecksumSelfVerifies := by
  intro h j heven hj hfield
  obtain ⟨front, hi, lo, rest, rfl, rfl⟩ := exists_eq_append_pair hj
  have hzeroed : ((front ++ hi :: lo :: rest).set front.length 0x00#8).set (front.length + 1) 0x00#8 =
      front ++ 0x00#8 :: 0x00#8 :: rest := by simp
  have hbytes : [(front ++ hi :: lo :: rest)[front.length]?, (front ++ hi :: lo :: rest)[front.length + 1]?] =
      [hi, lo].map some := by simp
  rw [hzeroed, hbytes] at hfield
  exact csum16_field_eq_zero heven (List.map_injective_iff.mpr (Option.some_injective _) hfield)

/-! ## The command (R88) -/

/-- Settles O28: the command delivers the two bytes of the number it leaves in `CSUM`. -/
theorem csumCommandCompletes : Obligations.CsumCommandCompletes := by
  intro s p hp
  obtain ⟨hexec, -⟩ := exec_delivers (i := .csum) trivial hp
  exact ⟨_, hexec, rfl, rfl, read_cellsAt_zero _ 0, read_cellsAt_zero _ 1, rfl, ⟨rfl, rfl, rfl, rfl, rfl, rfl⟩,
    ⟨rfl, fun _ => rfl⟩, ⟨rfl, rfl, rfl⟩⟩

end Sys2Proof.Machine
end

section
/-!
PROOFS. The ICMP echo request (41_icmp.md). The zeroed message is the words 0x0800, 0, identifier and sequence before the
payload, so its plain sum is never 0, and the checksum field depends on that sum's residue modulo 65535 alone.
-/

namespace Sys2Proof.Machine

/-! ## The two bytes of a value -/

/-- The two bytes of a value sum to it, as the one word they are. -/
@[simp] theorem plainSum_be16 (v : Word16) : plainSum (be16 v) = v.toNat := by
  rw [be16, plainSum_pair, ← word_toNat, word_extract]

theorem be16_injective : Function.Injective be16 := by
  intro v w h
  obtain ⟨hhi, hlo⟩ : v.extractLsb' 8 8 = w.extractLsb' 8 8 ∧ v.extractLsb' 0 8 = w.extractLsb' 0 8 := by
    simpa only [be16, List.cons.injEq, and_true] using h
  rw [← word_extract v, ← word_extract w, hhi, hlo]

/-! ## The layout (R100 to R102) -/

/-- The payload stands behind the eight bytes of the header, verbatim (41_icmp.md R100). -/
theorem icmpEcho_getElem?_payload (id seq : Word16) (p : List Byte) (i : Nat) :
    (icmpEcho id seq p)[8 + i]? = p[i]? := by
  rw [icmpEcho_eq, List.getElem?_append_right (by simp)]
  simp

/-- Settles O21: the eight header bytes are read off the message, and the payload follows them. -/
theorem icmpMessageLayout : Obligations.IcmpMessageLayout := fun id seq p =>
  ⟨csum16 (icmpZeroed id seq p), rfl, icmpEcho_length id seq p, rfl, rfl, rfl, rfl, rfl, rfl, rfl, rfl,
    fun i _ => icmpEcho_getElem?_payload id seq p i⟩

/-! ## The checksum field (R101, R104) -/

theorem icmpEcho_checksumField (id seq : Word16) (p : List Byte) :
    ((icmpEcho id seq p).drop 2).take 2 = csumBytes (icmpZeroed id seq p) := rfl

/-- The words summed: type and code, the zeroed field, identifier, sequence, payload (41_icmp.md R101). -/
theorem plainSum_icmpZeroed (id seq : Word16) (p : List Byte) :
    plainSum (icmpZeroed id seq p) = 0x0800 + id.toNat + seq.toNat + plainSum p := by
  have hfirst : plainSum [icmpType, icmpCode, 0x00#8, 0x00#8] = 0x0800 := rfl
  rw [icmpZeroed, plainSum_append (by simp), plainSum_append (by simp), plainSum_append (by simp), hfirst,
    plainSum_be16, plainSum_be16]

/-- The first word keeps the sum from 0. -/
theorem plainSum_icmpZeroed_pos (id seq : Word16) (p : List Byte) : 0 < plainSum (icmpZeroed id seq p) := by
  rw [plainSum_icmpZeroed]
  omega

/-- Sequences whose plain sums are positive and agree modulo 65535 have the same checksum (40_checksum.md R84). -/
theorem csum16_congr {b b' : List Byte} (hb : 0 < plainSum b) (hb' : 0 < plainSum b')
    (h : plainSum b % 65535 = plainSum b' % 65535) : csum16 b = csum16 b' := by
  apply BitVec.eq_of_toNat_eq
  rw [csum16_toNat_eq, csum16_toNat_eq, closedFold, closedFold, if_neg (by omega), if_neg (by omega)]
  omega

/-- The sum being positive, its residue alone decides the field (41_icmp.md R104 (c)). -/
theorem icmpEcho_checksumField_congr {id id' seq seq' : Word16} {p p' : List Byte}
    (h : (id.toNat + seq.toNat + plainSum p) % 65535 = (id'.toNat + seq'.toNat + plainSum p') % 65535) :
    ((icmpEcho id seq p).drop 2).take 2 = ((icmpEcho id' seq' p').drop 2).take 2 := by
  have hsum : plainSum (icmpZeroed id seq p) % 65535 = plainSum (icmpZeroed id' seq' p') % 65535 := by
    rw [plainSum_icmpZeroed, plainSum_icmpZeroed]
    omega
  rw [icmpEcho_checksumField, icmpEcho_checksumField, csumBytes, csumBytes,
    csum16_congr (plainSum_icmpZeroed_pos id seq p) (plainSum_icmpZeroed_pos id' seq' p') hsum]

/-- The message carries its checksum at index 2 (41_icmp.md R104 (b)). -/
theorem csum16_icmpEcho (id seq : Word16) (p : List Byte) : csum16 (icmpEcho id seq p) = 0x0000#16 :=
  csum16_field_eq_zero (front := [icmpType, icmpCode]) (rest := be16 id ++ be16 seq ++ p) rfl rfl

/-- A field of FF FF needs an all-zero message, and the first word is 0x0800 (41_icmp.md R104 (d)). -/
theorem icmpEcho_checksumField_ne_max (id seq : Word16) (p : List Byte) :
    ((icmpEcho id seq p).drop 2).take 2 ≠ [0xFF#8, 0xFF#8] := by
  intro h
  have hmax : csum16 (icmpZeroed id seq p) = 0xFFFF#16 := be16_injective h
  exact (plainSum_icmpZeroed_pos id seq p).ne' ((csum16_eq_max_iff _).mp hmax)

/-- A payload word 0xFFFF in the place of 0x0000 adds 0xFFFF to the plain sum. -/
theorem plainSum_wordMax {before : List Byte} (h : before.length % 2 = 0) (after : List Byte) :
    plainSum (before ++ [0xFF#8, 0xFF#8] ++ after) = plainSum (before ++ [0x00#8, 0x00#8] ++ after) + 0xFFFF := by
  rw [List.append_assoc, List.append_assoc]
  exact plainSum_field h 0xFF#8 0xFF#8 after

/-- Settles O22: in each clause on 0x0000 and 0xFFFF the plain sums differ by 65535. -/
theorem icmpChecksumProperties : Obligations.IcmpChecksumProperties := by
  refine ⟨fun id seq p => ⟨icmpEcho_length id seq p, csum16_icmpEcho id seq p, ?_, ?_,
    icmpEcho_checksumField_ne_max id seq p⟩, fun id seq before after h => ?_, by decide⟩
  · exact icmpEcho_checksumField_congr (by simp only [BitVec.toNat_ofNat]; omega)
  · exact icmpEcho_checksumField_congr (by simp only [BitVec.toNat_ofNat]; omega)
  · exact icmpEcho_checksumField_congr (by rw [plainSum_wordMax h]; omega)

/-! ## The command (R105) -/

/-- Settles O29: the command delivers the message, which fits `OUT`. -/
theorem icmpCommandCompletes : Obligations.IcmpCommandCompletes := by
  intro s p hp
  obtain ⟨hexec, hlen⟩ := exec_delivers (i := .icmp) trivial hp
  have hframed : Framed s (deliver (icmpEcho s.icmpId s.icmpSeq p) s) (icmpEcho s.icmpId s.icmpSeq p) :=
    framed_deliver hlen s
  refine ⟨_, hexec, hframed, ?_⟩
  rw [← hp.1, ← icmpEcho_length s.icmpId s.icmpSeq p]
  exact hframed.result.1

end Sys2Proof.Machine
end

section
/-!
PROOFS. The IPv4 packet (42_ipv4.md). What the framer accepts is a header of 20 bytes before the payload, and the plain
sum of the header's words with the checksum field zeroed is 0x8501, the total length and the address halves: never 0.
-/

namespace Sys2Proof.Machine

/-! ## What the framer accepts (R115, R117, R118) -/

/-- The framer accepts a payload exactly when it fits, and gives the header before it. -/
theorem ipv4Encode_eq_ok_iff {src dst : Word32} {p k : List Byte} : ipv4Encode src dst p = .ok k ↔
    p.length ≤ 65515 ∧ k = ipv4Header src dst (BitVec.ofNat 16 (20 + p.length)) ++ p := by
  by_cases h : p.length ≤ 65515
  · rw [ipv4Encode_of_le src dst h, Except.ok.injEq]
    exact ⟨fun hk => ⟨h, hk.symm⟩, fun ⟨_, hk⟩ => hk.symm⟩
  · rw [ipv4Encode_of_gt src dst (Nat.lt_of_not_le h)]
    exact ⟨nofun, fun ⟨hle, _⟩ => absurd hle h⟩

/-- The total length of an accepted packet fits its field (42_ipv4.md R117). -/
theorem totalLength_toNat {n : Nat} (h : n ≤ 65515) : (BitVec.ofNat 16 (20 + n)).toNat = 20 + n := by
  rw [BitVec.toNat_ofNat, Nat.mod_eq_of_lt (by omega)]

/-! ## The layout (R116, R120, R121) -/

/-- Settles O23: the header bytes are read off the packet, and the payload follows them. -/
theorem ipv4PacketLayout : Obligations.Ipv4PacketLayout := by
  intro src dst p h
  refine ⟨_, BitVec.ofNat 16 (20 + p.length), _, ipv4Encode_of_le src dst h, ?_, totalLength_toNat h, rfl, rfl, rfl,
    rfl, rfl, rfl, rfl, rfl, rfl, rfl, rfl, rfl, rfl, rfl, rfl, rfl⟩
  rw [List.length_append, ipv4Header_length]

/-! ## The checksum field (R119, R123) -/

/-- The checksum field of a packet, over the header alone (42_ipv4.md R119). -/
theorem ipv4Header_checksumField (src dst : Word32) (tl : Word16) (p : List Byte) :
    ((ipv4Header src dst tl ++ p).drop 10).take 2 = csumBytes (ipv4Zeroed src dst tl) := rfl

/-- The four bytes of a value sum to its two halves. -/
theorem plainSum_be32 (v : Word32) : plainSum (be32 v) = v.toNat / 65536 + v.toNat % 65536 := by
  have hv := v.isLt
  rw [be32, plainSum_cons_cons, plainSum_pair]
  simp only [BitVec.extractLsb'_toNat, Nat.shiftRight_eq_div_pow]
  omega

/-- The words summed: the constants 0x4500 and 0x4001, total length and address halves (42_ipv4.md R123 (c)). -/
theorem plainSum_ipv4Zeroed (src dst : Word32) (tl : Word16) : plainSum (ipv4Zeroed src dst tl) =
    0x8501 + tl.toNat + src.toNat / 65536 + src.toNat % 65536 + dst.toNat / 65536 + dst.toNat % 65536 := by
  have hparts : ipv4Zeroed src dst tl = [0x45#8, 0x00#8] ++ (be16 tl ++
    ([0x00#8, 0x00#8, 0x00#8, 0x00#8, 0x40#8, 0x01#8, 0x00#8, 0x00#8] ++ (be32 src ++ be32 dst))) := rfl
  have hversion : plainSum [0x45#8, 0x00#8] = 0x4500 := rfl
  have hprotocol : plainSum [0x00#8, 0x00#8, 0x00#8, 0x00#8, 0x40#8, 0x01#8, 0x00#8, 0x00#8] = 0x4001 := rfl
  rw [hparts, plainSum_append rfl, plainSum_append (by simp), plainSum_append rfl, plainSum_append (by simp),
    hversion, hprotocol, plainSum_be16, plainSum_be32, plainSum_be32]
  omega

/-- The constant words keep the sum from 0. -/
theorem plainSum_ipv4Zeroed_pos (src dst : Word32) (tl : Word16) : 0 < plainSum (ipv4Zeroed src dst tl) := by
  rw [plainSum_ipv4Zeroed]
  omega

/-- The checksum complements the folded plain sum (40_checksum.md R83). -/
theorem csum16_eq_ofNat_deferredFold (b : List Byte) :
    csum16 b = BitVec.ofNat 16 (0xFFFF - deferredFold (plainSum b)) := by
  rw [deferredFold_eq_closedFold, ← csum16_toNat_eq, BitVec.ofNat_toNat, BitVec.setWidth_eq]

/-- The header carries its checksum at index 10 (42_ipv4.md R123 (a)). -/
theorem csum16_ipv4Header (src dst : Word32) (tl : Word16) : csum16 (ipv4Header src dst tl) = 0x0000#16 :=
  csum16_field_eq_zero (front := [0x45#8, 0x00#8] ++ be16 tl ++ [0x00#8, 0x00#8, 0x00#8, 0x00#8, 0x40#8, 0x01#8])
    (rest := be32 src ++ be32 dst) (by simp) rfl

/-- A field of FF FF needs an all-zero header, and byte 0 is 0x45 (42_ipv4.md R123 (b)). -/
theorem csumBytes_ipv4Zeroed_ne_max (src dst : Word32) (tl : Word16) :
    csumBytes (ipv4Zeroed src dst tl) ≠ [0xFF#8, 0xFF#8] := by
  intro h
  have hmax : csum16 (ipv4Zeroed src dst tl) = 0xFFFF#16 := be16_injective h
  exact (plainSum_ipv4Zeroed_pos src dst tl).ne' ((csum16_eq_max_iff _).mp hmax)

/-- All-one addresses add four words 0xFFFF to what all-zero addresses give (42_ipv4.md R123 (d)). -/
theorem csum16_ipv4Zeroed_zero_eq_max (tl : Word16) :
    csum16 (ipv4Zeroed 0x00000000#32 0x00000000#32 tl) = csum16 (ipv4Zeroed 0xFFFFFFFF#32 0xFFFFFFFF#32 tl) := by
  apply csum16_congr (plainSum_ipv4Zeroed_pos _ _ _) (plainSum_ipv4Zeroed_pos _ _ _)
  rw [plainSum_ipv4Zeroed, plainSum_ipv4Zeroed]
  simp only [BitVec.toNat_ofNat]
  omega

/-- Settles O25: the properties of an accepted packet's header. The source 0x7AEA brings the sum of an empty packet's
header to 0xFFFF, so its field is 00 00. -/
theorem ipv4HeaderProperties : Obligations.Ipv4HeaderProperties := by
  refine ⟨fun src dst p k hk => ?_, ?_, fun p k k' hk hk' => ?_⟩
  · obtain ⟨hn, rfl⟩ := ipv4Encode_eq_ok_iff.mp hk
    rw [List.take_left' (ipv4Header_length _ _ _), ipv4Header_checksumField]
    refine ⟨csum16_ipv4Header _ _ _, csumBytes_ipv4Zeroed_ne_max _ _ _, ?_⟩
    rw [csumBytes, csum16_eq_ofNat_deferredFold, plainSum_ipv4Zeroed, totalLength_toNat hn]
  · exact ⟨0x00007AEA#32, 0x00000000#32, _, ipv4Encode_of_le _ _ (Nat.zero_le _), by decide⟩
  · obtain ⟨-, rfl⟩ := ipv4Encode_eq_ok_iff.mp hk
    obtain ⟨-, rfl⟩ := ipv4Encode_eq_ok_iff.mp hk'
    rw [ipv4Header_checksumField, ipv4Header_checksumField, csumBytes, csumBytes, csum16_ipv4Zeroed_zero_eq_max]
    refine ⟨rfl, ?_⟩
    rintro rfl
    decide

/-! ## The command (R124) -/

/-- The length test raises before any `IN` byte is read (60_exceptions.md R175). -/
theorem exec_ipv4_oversize (s : State) (h : 65516 ≤ s.inLen.toNat) : exec .ipv4 s = .next (failedWith 2#4 s) :=
  exec_raises (e := .ipv4Len) (.inl ⟨rfl, rfl, h⟩)

/-- Settles O24: the framer's two cases, and the command's error. -/
theorem oversizePayloadIsRejected : Obligations.OversizePayloadIsRejected :=
  ⟨fun src dst _ h => ipv4Encode_of_gt src dst h, fun src dst _ h => ⟨_, ipv4Encode_of_le src dst h⟩,
    exec_ipv4_oversize⟩

/-- Settles O30: the command delivers the packet, which fits `OUT`, or raises. -/
theorem ipv4CommandCompletesOrRaises : Obligations.Ipv4CommandCompletesOrRaises := by
  refine ⟨fun s p hp hn => ?_, exec_ipv4_oversize⟩
  obtain ⟨hexec, hlen⟩ := exec_delivers (i := .ipv4) hn hp
  have hframed : Framed s (deliver (resultOf .ipv4 s p) s) (resultOf .ipv4 s p) := framed_deliver hlen s
  refine ⟨_, _, hexec, ipv4Encode_of_le _ _ (hp.1.trans_le hn), hframed, ?_⟩
  rw [← hp.1, ← ipv4Header_length s.ipSrc s.ipDst (BitVec.ofNat 16 (20 + p.length)), ← List.length_append]
  exact hframed.result.1

end Sys2Proof.Machine
end

section
/-!
PROOFS. The Ethernet frame (43_ethernet.md). The fourteen bytes of the header are known before the payload is, so they are
read off the frame; the payload stands behind them.
-/

namespace Sys2Proof.Machine

/-! ## The layout (R135) -/

/-- The payload stands behind the fourteen bytes of the header, verbatim (43_ethernet.md R135). -/
theorem ethEncode_getElem?_payload (dmac smac : Word48) (p : List Byte) (i : Nat) :
    (ethEncode dmac smac p)[14 + i]? = p[i]? := by
  have hheader : (be48 dmac ++ be48 smac ++ be16 ethType).length = 14 := rfl
  rw [ethEncode, List.getElem?_append_right (by omega), hheader, Nat.add_sub_cancel_left]

/-- Settles O26: the header bytes are read off the frame, and the payload follows them. -/
theorem ethernetFrameLayout : Obligations.EthernetFrameLayout := fun dmac smac p =>
  ⟨ethEncode_length dmac smac p, rfl, rfl, rfl, rfl, rfl, rfl, rfl, rfl, rfl, rfl, rfl, rfl, rfl, rfl,
    fun i _ => ethEncode_getElem?_payload dmac smac p i⟩

/-! ## The command (R139) -/

/-- A command that delivers, other than `CSUM`, frames its result and sets `OUT_LEN` to its length. -/
theorem exec_framed {i : Instr} {s : State} {p : List Byte} (hi : ReadsInput i s) (hc : i ≠ .csum) (h : InputIs s p) :
    ∃ t : State, exec i s = .next t ∧ Framed s t (resultOf i s p) ∧ t.outLen.toNat = (resultOf i s p).length := by
  obtain ⟨hexec, hlen⟩ := exec_delivers hi h
  rw [csumAfter, if_neg hc] at hexec
  have hframed : Framed s (deliver (resultOf i s p) s) (resultOf i s p) := framed_deliver hlen s
  exact ⟨_, hexec, hframed, hframed.result.1⟩

/-- Settles O31: the command delivers the frame, which is 14 bytes longer than the input. -/
theorem ethCommandCompletes : Obligations.EthCommandCompletes := by
  intro s p hp
  obtain ⟨t, hexec, hframed, hlen⟩ := exec_framed (i := .eth) trivial (by decide) hp
  refine ⟨t, hexec, hframed, ?_⟩
  rw [hlen, resultOf, ethEncode_length, hp.1]

end Sys2Proof.Machine
end

section
/-!
PROOFS. The composition and the system commands (44_compose_and_system.md). `XFER` makes a delivered result the input of
the next command, so running the layers one at a time hands each framer exactly the bytes `PING` composes.
-/

namespace Sys2Proof.Machine

/-! ## The composed frame (R150) -/

/-- Settles O27: the two headers are known before the payload is, and each layer stands behind the one around it. -/
theorem pingFrameLayout : Obligations.PingFrameLayout := by
  refine fun dmac smac src dst id seq p => ⟨fun h => ?_, pingFrame_of_gt dmac smac src dst id seq⟩
  have hmessage : (icmpEcho id seq p).length ≤ 65515 := by rw [icmpEcho_length]; omega
  refine ⟨_, BitVec.ofNat 16 (20 + (icmpEcho id seq p).length), pingFrame_of_le dmac smac src dst id seq h, ?_, rfl, ?_,
    rfl, rfl, rfl⟩
  · rw [ethEncode_length, List.length_append, ipv4Header_length, icmpEcho_length]
    omega
  · rw [totalLength_toNat hmessage, icmpEcho_length]
    omega

/-! ## `PING` (R151) -/

/-- `PING` composes the three framers, ICMP innermost (44_compose_and_system.md R150). -/
theorem resultOf_ping (s : State) (p : List Byte) :
    resultOf .ping s p = resultOf .eth s (resultOf .ipv4 s (resultOf .icmp s p)) := rfl

theorem resultOf_icmp_length {s : State} {p : List Byte} (h : InputIs s p) :
    (resultOf .icmp s p).length = 8 + s.inLen.toNat := by
  rw [resultOf, icmpEcho_length, h.1]

theorem resultOf_ipv4_length (s : State) (p : List Byte) : (resultOf .ipv4 s p).length = 20 + p.length := by
  rw [resultOf, List.length_append, ipv4Header_length]

theorem resultOf_ping_length {s : State} {p : List Byte} (h : InputIs s p) :
    (resultOf .ping s p).length = 42 + s.inLen.toNat := by
  have hframe : (resultOf .ping s p).length = 14 + (resultOf .ipv4 s (resultOf .icmp s p)).length :=
    ethEncode_length s.ethDst s.ethSrc _
  rw [hframe, resultOf_ipv4_length, resultOf_icmp_length h]
  omega

/-- `PING` tests the length of the payload, whatever has been written (44_compose_and_system.md R151). -/
theorem exec_ping_oversize (s : State) (h : 65508 ≤ s.inLen.toNat) : exec .ping s = .next (failedWith 2#4 s) :=
  exec_raises (e := .ipv4Len) (.inr (.inl ⟨rfl, rfl, h⟩))

/-- Settles O32: the command delivers the composed frame, or its length test raises before any `IN` byte is read. -/
theorem pingCommandCompletesOrRaises : Obligations.PingCommandCompletesOrRaises := by
  refine ⟨fun s p hp hn => ?_, exec_ping_oversize⟩
  obtain ⟨t, hexec, hframed, hlen⟩ := exec_framed (i := .ping) hn (by decide) hp
  exact ⟨t, _, hexec, pingFrame_of_le _ _ _ _ _ _ (hp.1.trans_le hn), hframed, hlen.trans (resultOf_ping_length hp)⟩

/-! ## `XFER` (R152) -/

/-- A result that `XFER` takes fits `IN_LEN`. -/
theorem copyResult_inLen_toNat {s : State} (hn : s.outLen.toNat ≤ 65535) :
    (copyResult s).inLen.toNat = s.outLen.toNat := by
  rw [copyResult_inLen, BitVec.toNat_setWidth, Nat.mod_eq_of_lt (Nat.lt_succ_of_le hn)]

/-- After the copy the input is the result. -/
theorem inputIs_copyResult {s : State} {b : List Byte} (h : ResultIs s b) (hb : b.length ≤ 65535) :
    InputIs (copyResult s) b := by
  obtain ⟨hlen, hbytes⟩ := h
  refine ⟨by rw [copyResult_inLen_toNat (hlen.trans_le hb), hlen], fun i hi => ?_⟩
  rw [copyResult_inBuf, read_copyFirst, if_pos (hlen ▸ hi), hbytes i hi]

/-- What the invariant says of the result, the copy makes true of the input. -/
theorem inputWritten_copyResult {s : State} (h : StateInv s) (hn : s.outLen.toNat ≤ 65535) :
    InputWritten (copyResult s) := by
  intro i hi
  rw [copyResult_inLen_toNat hn] at hi
  rw [copyResult_inBuf, read_copyFirst, if_pos hi]
  exact h.outDefined i hi

/-- Settles O33: the copy, read index by index, and done a second time (`exec_xfer_again`); or the error. -/
theorem xferCommandCopiesOrRaises : Obligations.XferCommandCopiesOrRaises := by
  refine ⟨fun s hn => ⟨complete (copyResult s), execXfer_of_le hn, copyResult_inLen_toNat hn, fun i hi => ?_,
    fun i hi => ?_, fun h => inputWritten_copyResult h hn, exec_xfer_again hn, rfl, ⟨rfl, rfl, rfl, rfl, rfl, rfl⟩,
    ⟨rfl, fun _ => rfl⟩, rfl, ⟨rfl, rfl, rfl⟩⟩, fun s hn => execXfer_of_gt hn⟩
  · rw [complete_inBuf, copyResult_inBuf, read_copyFirst, if_pos hi]
  · rw [complete_inBuf, copyResult_inBuf, read_copyFirst, if_neg (Nat.not_lt_of_le hi)]

/-- Settles O46: the error leaves a result of no bytes, and copying no bytes leaves `IN`. -/
theorem xferAfterXferLenIsEmpty : Obligations.XferAfterXferLenIsEmpty := by
  refine fun s hn => ⟨_, complete (copyResult (failedWith 3#4 s)), execXfer_of_gt hn, rfl,
    execXfer_of_le (Nat.zero_le _), rfl, rfl, rfl, fun a => ?_⟩
  rw [complete_inBuf, copyResult_inBuf, read_copyFirst]
  exact if_neg (Nat.not_lt_zero a)

/-! ## `SRST` (R153) -/

/-- Settles O34: what soft reset writes, field by field, and that the reset state already holds it. -/
theorem srstCommandResetsRegisters : Obligations.SrstCommandResetsRegisters :=
  ⟨fun s => ⟨softReset s, rfl, rfl, rfl, rfl, rfl, rfl, rfl, rfl, rfl, rfl, rfl, fun _ => rfl, fun _ => rfl,
    rfl, rfl, rfl⟩, rfl⟩

/-! ## Commands in sequence -/

/-- Every command writes the whole of `STATUS`, so it does not matter that command start has cleared it
(60_exceptions.md R171). -/
theorem exec_commandStart (i : Instr) (s : State) : exec i (commandStart s) = exec i s := by
  cases i <;> rfl

theorem runCommands_cons_of_next {i : Instr} {s t : State} (h : exec i s = .next t) (is : List Instr) :
    runCommands (i :: is) s = runCommands is t := by
  rw [runCommands, runCommand_encode, exec_commandStart, h]

/-- A command that delivers, other than `CSUM`, does nothing else. -/
theorem exec_eq_deliver {i : Instr} {s : State} {p : List Byte} (hi : ReadsInput i s) (hc : i ≠ .csum)
    (h : InputIs s p) : exec i s = .next (deliver (resultOf i s p) s) := by
  rw [(exec_delivers hi h).1, csumAfter_of_ne hc]

/-- A delivery leaves the input. -/
theorem inputIs_deliver {s : State} {p : List Byte} (h : InputIs s p) (b : List Byte) : InputIs (deliver b s) p :=
  h.congr rfl fun _ _ => rfl

/-- The state after a result has been delivered and transferred to the input: what a framer and an `XFER` leave. -/
def State.handOn (s : State) (b : List Byte) : State := complete (copyResult (deliver b s))

/-- The bytes handed on are the next command's input. -/
theorem inputIs_handOn {b : List Byte} (hb : b.length ≤ 65535) (s : State) : InputIs (s.handOn b) b :=
  (inputIs_copyResult (resultIs_deliver (hb.trans (by decide)) s) hb).congr rfl fun _ _ => rfl

/-- A framer and an `XFER` hand the framed bytes on. -/
theorem runCommands_handOn {i : Instr} {s : State} {p : List Byte} (hi : ReadsInput i s) (hc : i ≠ .csum)
    (h : InputIs s p) (hb : (resultOf i s p).length ≤ 65535) (is : List Instr) :
    runCommands (i :: .xfer :: is) s = runCommands is (s.handOn (resultOf i s p)) := by
  have hlen : (deliver (resultOf i s p) s).outLen.toNat ≤ 65535 :=
    (resultIs_deliver (hb.trans (by decide)) s).1.trans_le hb
  have hxfer : exec .xfer (deliver (resultOf i s p) s) = .next (s.handOn (resultOf i s p)) := execXfer_of_le hlen
  rw [runCommands_cons_of_next (exec_eq_deliver hi hc h), runCommands_cons_of_next hxfer]

/-! ## Layer by layer (R154) -/

/-- Handing a result on leaves the operand registers, so the next framer delivers what it would have before. -/
theorem resultOf_handOn (i : Instr) (s : State) (b p : List Byte) :
    resultOf i (s.handOn b) p = resultOf i s p :=
  resultOf_congr ⟨rfl, rfl, rfl, rfl, rfl, rfl⟩ i p

/-- Handing a result on before a delivery shows in the input alone. -/
theorem deliver_handOn (s : State) (b f : List Byte) :
    deliver f (s.handOn b) = { deliver f s with inBuf := (s.handOn b).inBuf, inLen := (s.handOn b).inLen } := rfl

/-- The message handed on is the input of the next command. -/
theorem inputIs_handOn_icmp {s : State} {p : List Byte} (hp : InputIs s p) (hn : s.inLen.toNat ≤ 65527) :
    InputIs (s.handOn (resultOf .icmp s p)) (resultOf .icmp s p) :=
  inputIs_handOn (by rw [resultOf_icmp_length hp]; omega) s

/-- The packet handed on after it is the input of the next command. -/
theorem inputIs_handOn_ipv4 {s : State} {p : List Byte} (hp : InputIs s p) (hn : s.inLen.toNat ≤ 65507) :
    InputIs ((s.handOn (resultOf .icmp s p)).handOn (resultOf .ipv4 s (resultOf .icmp s p)))
      (resultOf .ipv4 s (resultOf .icmp s p)) :=
  inputIs_handOn (by rw [resultOf_ipv4_length, resultOf_icmp_length hp]; omega) _

/-- The sequence delivers the frame of `PING`, with the IPv4 packet as the input. -/
theorem runCommands_layers {s : State} {p : List Byte} (hp : InputIs s p) (hn : s.inLen.toNat ≤ 65507) :
    runCommands [.icmp, .xfer, .ipv4, .xfer, .eth] s = .next (deliver (resultOf .ping s p)
      ((s.handOn (resultOf .icmp s p)).handOn (resultOf .ipv4 s (resultOf .icmp s p)))) := by
  have hm := resultOf_icmp_length hp
  have hk := resultOf_ipv4_length s (resultOf .icmp s p)
  have hmessage := inputIs_handOn_icmp hp (hn.trans (by decide))
  have hreads : ReadsInput .ipv4 (s.handOn (resultOf .icmp s p)) := hmessage.1.symm.trans_le (by omega)
  have heth := exec_eq_deliver (i := .eth) trivial (by decide) (inputIs_handOn_ipv4 hp hn)
  rw [runCommands_handOn (i := .icmp) trivial (by decide) hp (by omega),
    runCommands_handOn hreads (by decide) hmessage (by rw [resultOf_handOn]; omega), resultOf_handOn,
    runCommands_cons_of_next heth, resultOf_handOn, resultOf_handOn, resultOf_ping, runCommands]

/-- Settles O47: up to 65507 bytes both deliver the frame, from states that differ in the input. Above, the message is
too long for `IPV4`, and above 65527 bytes for the first `XFER`. -/
theorem layerByLayerEqualsPing : Obligations.LayerByLayerEqualsPing := by
  refine ⟨fun s p hp hn => ?_, fun s p hp hn =>
    ⟨⟨_, runCommands_cons_of_next (exec_ping_oversize s hn) [], rfl⟩, fun hle => ?_, fun hgt => ?_⟩⟩
  · have hping : exec .ping s = .next (deliver (resultOf .ping s p) s) := exec_eq_deliver hn (by decide) hp
    have hm := resultOf_icmp_length hp
    have hpacket := inputIs_handOn_ipv4 hp hn
    refine ⟨_, _, resultOf .ipv4 s (resultOf .icmp s p), runCommands_layers hp hn, runCommands_cons_of_next hping [],
      by rw [deliver_handOn, deliver_handOn], ?_, by rw [deliver_outLen, deliver_outLen],
      fun _ _ => by rw [deliver_outBuf, deliver_outBuf], rfl,
      ipv4Encode_of_le _ _ (hm.trans_le (by omega)), inputIs_deliver hpacket _, ?_, inputIs_deliver hp _⟩
    · rw [deliver_outLen, resultOf_ping_length hp, outLen_toNat_of_le (by omega)]
    · rw [deliver_inLen, ← hpacket.1, resultOf_ipv4_length]
      omega
  · have hm := resultOf_icmp_length hp
    have hmessage := inputIs_handOn_icmp hp hle
    have hraise : RaisesError .ipv4 .ipv4Len (s.handOn (resultOf .icmp s p)) :=
      .inl ⟨rfl, rfl, by rw [← hmessage.1]; omega⟩
    exact ⟨_, _, runCommands_handOn (i := .icmp) trivial (by decide) hp (by omega) [], rfl,
      runCommands_cons_of_next (exec_raises hraise) [], rfl⟩
  · obtain ⟨t, hexec, hframed, hlen⟩ := exec_framed (i := .icmp) trivial (by decide) hp
    rw [resultOf_icmp_length hp] at hlen
    have hraise : RaisesError .xfer .xferLen t := .inr (.inr ⟨rfl, rfl, by omega⟩)
    exact ⟨t, _, runCommands_cons_of_next hexec [], hframed.status,
      runCommands_cons_of_next (exec_raises hraise) [], rfl⟩

end Sys2Proof.Machine
end

section
/-!
PROOFS. Errors (60_exceptions.md). The table of R170 is written out as a predicate, and the write of a command byte is held
to it from both sides: a cause that holds is raised, and an error that is reported has its cause. That the causes exclude one
another, and that the code tells them apart, follows from these two.
-/

namespace Sys2Proof.Machine

/-! ## The table of causes -/

/-- When the write of the command byte `c` raises the error, by the table of 60_exceptions.md R170. -/
def ErrorCause (c : Byte) (s : State) : CommandError → Prop
  | .illegalCmd => 0x07 ≤ c.toNat
  | .ipv4Len => (c = 0x03#8 ∧ 65516 ≤ s.inLen.toNat) ∨ (c = 0x06#8 ∧ 65508 ≤ s.inLen.toNat)
  | .xferLen => c = 0x05#8 ∧ 65535 < s.outLen.toNat

/-- An error of a command is one of the table, at that command's byte. -/
theorem RaisesError.errorCause {i : Instr} {e : CommandError} {s : State} (h : RaisesError i e s) :
    ErrorCause (encode i) s e := by
  rcases h with ⟨rfl, rfl, h⟩ | ⟨rfl, rfl, h⟩ | ⟨rfl, rfl, h⟩
  · exact .inl ⟨rfl, h⟩
  · exact .inr ⟨rfl, h⟩
  · exact ⟨rfl, h⟩

/-- Every byte below 0x07 is a command's (30_encoding.md R62). -/
theorem exists_encode_of_toNat_lt {c : Byte} (h : c.toNat < 0x07) : ∃ i, c = encode i :=
  match hc : c.toNat, h with
  | 0, _ => ⟨.srst, BitVec.eq_of_toNat_eq hc⟩
  | 1, _ => ⟨.csum, BitVec.eq_of_toNat_eq hc⟩
  | 2, _ => ⟨.icmp, BitVec.eq_of_toNat_eq hc⟩
  | 3, _ => ⟨.ipv4, BitVec.eq_of_toNat_eq hc⟩
  | 4, _ => ⟨.eth, BitVec.eq_of_toNat_eq hc⟩
  | 5, _ => ⟨.xfer, BitVec.eq_of_toNat_eq hc⟩
  | 6, _ => ⟨.ping, BitVec.eq_of_toNat_eq hc⟩

theorem errorCode_ne_zero (e : CommandError) : errorCode e ≠ 0#4 := by cases e <;> decide

/-- The code tells which error it was (60_exceptions.md R170). -/
theorem errorCode_injective : Function.Injective errorCode := by
  intro e e' h
  cases e <;> cases e' <;> cases h <;> rfl

/-! ## The write of a command byte -/

/-- Raising after command start: nothing but `STATUS` and `OUT_LEN` differs from before it (60_exceptions.md R173). -/
theorem raise_commandStart (e : CommandError) (s : State) :
    raise e (commandStart s) = failedWith (errorCode e) s := rfl

/-- A cause that holds is raised. -/
theorem runCommand_of_errorCause {c : Byte} {e : CommandError} {s : State} (h : ErrorCause c s e) :
    runCommand c s = .next (failedWith (errorCode e) s) := by
  rw [← raise_commandStart]
  cases e with
  | illegalCmd => exact runCommand_illegal h s
  | ipv4Len =>
    rcases h with ⟨rfl, h⟩ | ⟨rfl, h⟩
    · exact (runCommand_encode .ipv4 s).trans (exec_raises (.inl ⟨rfl, rfl, h⟩))
    · exact (runCommand_encode .ping s).trans (exec_raises (.inr (.inl ⟨rfl, rfl, h⟩)))
  | xferLen =>
    obtain ⟨rfl, h⟩ := h
    exact (runCommand_encode .xfer s).trans (exec_raises (.inr (.inr ⟨rfl, rfl, h⟩)))

/-- A command that reports an error has a cause for one. -/
theorem exec_err {i : Instr} {s t : State} (h : exec i s = .next t) (herr : t.status.err = true) :
    ∃ e, RaisesError i e s := by
  rcases exec_next_cases h with ⟨-, p, -, -, rfl⟩ | ⟨e, he, -⟩ | ⟨-, -, rfl⟩ | ⟨-, rfl⟩
  · cases herr
  · exact ⟨e, he⟩
  · cases herr
  · cases herr

section
variable {c : Byte} {s t : State} (h : runCommand c s = .next t)
include h

/-- An error that is reported has its cause, and the state is the one R173 gives. -/
theorem runCommand_err (herr : t.status.err = true) :
    ∃ e, ErrorCause c s e ∧ t = failedWith (errorCode e) s := by
  have hcause : ∃ e, ErrorCause c s e := by
    by_cases hc : 0x07 ≤ c.toNat
    · exact ⟨.illegalCmd, hc⟩
    · obtain ⟨i, rfl⟩ := exists_encode_of_toNat_lt (Nat.lt_of_not_le hc)
      rw [runCommand_encode, exec_commandStart] at h
      obtain ⟨e, he⟩ := exec_err h herr
      exact ⟨e, he.errorCause⟩
  obtain ⟨e, he⟩ := hcause
  rw [runCommand_of_errorCause he] at h
  cases h
  exact ⟨e, he, rfl⟩

/-- `ERR` says whether `ERRCODE` holds a code (10_state.md R21). -/
theorem runCommand_err_iff : t.status.err = true ↔ t.status.errcode ≠ 0#4 := by
  constructor
  · intro herr
    obtain ⟨e, -, rfl⟩ := runCommand_err h herr
    exact errorCode_ne_zero e
  · intro hcode
    obtain ⟨-, -, hclear⟩ := runCommand_status h
    exact Bool.of_not_eq_false (mt hclear hcode)

/-- Each code is reported exactly when its cause holds. -/
theorem runCommand_errcode_iff (e : CommandError) : t.status.errcode = errorCode e ↔ ErrorCause c s e := by
  constructor
  · intro hcode
    have herr : t.status.err = true := (runCommand_err_iff h).mpr (hcode ▸ errorCode_ne_zero e)
    obtain ⟨e', he', rfl⟩ := runCommand_err h herr
    exact errorCode_injective hcode ▸ he'
  · intro he
    rw [runCommand_of_errorCause he] at h
    cases h
    rfl

/-- There is no fourth code (60_exceptions.md R170). -/
theorem runCommand_errcode_le : t.status.errcode.toNat ≤ 3 := by
  by_cases herr : t.status.err = true
  · obtain ⟨e, -, rfl⟩ := runCommand_err h herr
    exact (errorCode_bounds e).2
  · rw [runCommand_err_iff h, not_not] at herr
    simp [herr]

end

/-- Settles O36: the write runs the byte in the low bits of the data, and each code is reported exactly at its cause. -/
theorem errorsHaveExactCauses : Obligations.ErrorsHaveExactCauses := by
  intro s t rest v h
  rw [step_cmdWrite] at h
  refine ⟨runCommand_errcode_iff h .illegalCmd, runCommand_errcode_iff h .ipv4Len, runCommand_errcode_iff h .xferLen,
    runCommand_errcode_le h, runCommand_err_iff h, fun herr => ?_⟩
  obtain ⟨e, -, rfl⟩ := runCommand_err h herr
  rfl

end Sys2Proof.Machine
end

section
/-!
PROOFS. Reset, and that no step hangs (70_reset_and_hazards.md). A step answers a next state at once unless it runs a
command, and a command runs on the input as it stood before the edge: whether a step completes is the question whether that
command does.
-/

namespace Sys2Proof.Machine

/-! ## Reset -/

/-- At an edge with `rst` = 1 a step takes the reset state, whatever else is presented (70_reset_and_hazards.md R200, R202). -/
theorem step_reset {p : PortInput} (hr : p.rst = true) (s : State) (rest : List PortInput) :
    step (s.facing p rest) = .next (hardReset { s with pending := rest }) := by
  rw [step_facing, portEdge, if_pos hr]

/-- Settles O6: the reset edge, the edge with nothing presented and the step with nothing to come, one lemma for each. -/
theorem resetEdgeTakesResetState : Obligations.ResetEdgeTakesResetState :=
  ⟨fun s rest _ hr => step_reset hr s rest, rfl, fun s rest _ hr hv => step_idle hr hv s rest,
    fun _ h => step_waiting h⟩

/-! ## Completion -/

/-- Whether the input has been written depends on the input only. -/
theorem InputWritten.congr {s t : State} (h : InputWritten s) (hst : SameInput s t) : InputWritten t := by
  intro i hi
  rw [hst.bytes]
  exact h i (hst.inLen ▸ hi)

/-- Once its input has been written a command completes: the one thing that stops a command is an unwritten byte. -/
theorem exec_completes {s : State} (h : InputWritten s) (i : Instr) : ∃ t, exec i s = .next t := by
  rcases exec_cases i s with ⟨-, p, -, -, e⟩ | ⟨-, ⟨k, hk, hnone⟩, -⟩ | ⟨x, -, e⟩ | ⟨-, -, e⟩ | ⟨-, e⟩
  · exact ⟨_, e⟩
  · have hsome := h k hk
    rw [hnone] at hsome
    cases hsome
  · exact ⟨_, e⟩
  · exact ⟨_, e⟩
  · exact ⟨_, e⟩

/-- The edge of `p` completes at once, or is the meaning of a command on the input as it stood before the edge. -/
theorem step_facing_completes_or_execs (s : State) (p : PortInput) (rest : List PortInput) :
    (∃ t, step (s.facing p rest) = .next t) ∨ ∃ i u, step (s.facing p rest) = exec i u ∧ SameInput s u := by
  rcases step_facing_cases s p rest with
    ⟨-, e⟩ | ⟨-, e⟩ | ⟨-, -, r, k, e⟩ | ⟨-, -, -, -, -, r, -, -, e⟩ | ⟨-, -, i, b, -, e⟩
  · exact .inl ⟨_, e⟩
  · rcases runCommand_cases (p.req.wdata.setWidth 8) { s with pending := rest, response := .writeDone } with
      ⟨i, -, hrun⟩ | ⟨x, -, hrun⟩
    · exact .inr ⟨i, _, e.trans hrun, rfl, fun _ => rfl⟩
    · exact .inl ⟨_, e.trans hrun⟩
  · exact .inl ⟨_, e⟩
  · exact .inl ⟨_, e⟩
  · exact .inl ⟨_, e⟩

/-- The same of every step: with nothing to come, a step completes. -/
theorem step_completes_or_execs (s : State) :
    (∃ t, step s = .next t) ∨ ∃ i u, step s = exec i u ∧ SameInput s u := by
  cases hp : s.pending with
  | nil => exact .inl ⟨_, step_waiting hp⟩
  | cons p rest =>
    rw [congrArg step (facing_of_pending hp)]
    rcases step_facing_completes_or_execs { s with pending := rest } p rest with h | ⟨i, u, e, hin⟩
    · exact .inl h
    · exact .inr ⟨i, u, e, hin.inLen, hin.bytes⟩

/-- Settles O38: a step that does not complete at once runs a command, which completes on a written input and is never
refused. -/
theorem everyStepCompletesOnWrittenInput : Obligations.EveryStepCompletesOnWrittenInput := by
  intro s
  rcases step_completes_or_execs s with ⟨t, e⟩ | ⟨i, u, e, hin⟩
  · exact ⟨fun _ => ⟨t, e⟩, fun r h => by rw [e] at h; cases h⟩
  · rw [e]
    exact ⟨fun h => exec_completes (h.congr hin) i, exec_not_refused i u⟩

end Sys2Proof.Machine
end
